-- ==== Sys2Proof/Word.lean ====
section
/-! DEFINITION. The word types of the ports and of response data (R9, R45, R46, R47). -/

namespace Sys2Proof

/-- A command word or a response word (R9, R46, R47). -/
abbrev Word := BitVec 32

/-- The data field of a response word, `rsp[27:0]` (R47). -/
abbrev Data := BitVec 28

end Sys2Proof
end

