-- ==== Sys2Proof/Config.lean ====
section
/-! DEFINITION. What an implementation of the block fixes: its two parameters (R7, R8). The spec leaves no other
value to an implementation that a command could return, so there is no free value here. -/

namespace Sys2Proof

/-- The configuration parameters. They are also what register PARAMS holds (R20), so they stand in `State.params`, in
the widths R20 gives them, and a statement about every state is a statement about every configuration (D3, D4). -/
structure Config where
  /-- `P_NSYM_MAX`, the number of symbols LEN can hold (R7). -/
  nsymMax : BitVec 16
  /-- `P_LMAX`, the largest code length accepted (R8). -/
  lmax : BitVec 5
  deriving DecidableEq, Repr

/-- The default configuration (R7, R8). -/
def Config.default : Config := ⟨288, 15⟩

end Sys2Proof
end

