-- ==== Sys2Proof/Syntax.lean ====
section
/-! DEFINITION. The six commands of the opcode map (R50), one constructor a row of spec/opcode_table.json. -/

namespace Sys2Proof

/-- A command with its operand. Each operand has exactly the width of its field (R49, R51, R52, R53), so every term
stands for a command word and none holds an operand that no word can carry. -/
inductive Instr where
  /-- CLEAR (R89). -/
  | clear
  /-- PUSH_LEN with `CLEN = cmd[4:0]` (R62, R51). -/
  | pushLen (clen : BitVec 5)
  /-- BUILD (R65). -/
  | build
  /-- LOOKUP with `IDX = cmd[15:0]` (R85, R52). -/
  | lookup (idx : BitVec 16)
  /-- READ_LEN with `IDX = cmd[15:0]` (R64, R52). -/
  | readLen (idx : BitVec 16)
  /-- READ_REG with `REG = cmd[3:0]` (R91, R53). -/
  | readReg (reg : BitVec 4)
  deriving DecidableEq, Repr

end Sys2Proof
end

