-- ==== Sys2Proof/WellFormed.lean ====
section
/-! DEFINITION. The checks on what is given to the block: a configuration within its legal ranges (R7, R8), and a
command word that spells a row of the opcode map (R46, R49, R50). `Instr` needs no check of its own: its operands have
the widths of their fields. The word check is written from the map's mask and match columns, not from the decoding
procedure of R58 in Decode.lean, so that the two readings of the spec can be held against each other. -/

namespace Sys2Proof

/-- `P_NSYM_MAX` is in 1 to 65535 (R7); 16 bits hold no more. -/
def Config.nsymMaxLegal (c : Config) : Bool := 1 ≤ c.nsymMax.toNat

/-- `P_LMAX` is in 1 to 16 (R8). -/
def Config.lmaxLegal (c : Config) : Bool := 1 ≤ c.lmax.toNat && c.lmax.toNat ≤ 16

/-- A configuration the block can be built with (R7, R8). -/
def Config.wf (c : Config) : Bool := c.nsymMaxLegal && c.lmaxLegal

/-- One row of the opcode map (R50). -/
structure OpRow where
  /-- the match column -/
  value : Word
  /-- the mask column -/
  mask : Word
  deriving DecidableEq, Repr

/-- "A word `w` spells command X exactly when `(w & mask_X) = match_X`" (R50). -/
def OpRow.spells (r : OpRow) (w : Word) : Bool := w &&& r.mask = r.value

/-- The row of each command (R50, spec/opcode_table.json). -/
def Instr.row : Instr → OpRow
  | .clear => ⟨0x10000000, 0xFFFFFFFF⟩
  | .pushLen _ => ⟨0x20000000, 0xFFFFFFE0⟩
  | .build => ⟨0x30000000, 0xFFFFFFFF⟩
  | .lookup _ => ⟨0x40000000, 0xFFFF0000⟩
  | .readLen _ => ⟨0x50000000, 0xFFFF0000⟩
  | .readReg _ => ⟨0x60000000, 0xFFFFFFF0⟩

/-- The opcode map (R50), in its order. -/
def opcodeMap : List OpRow :=
  [Instr.row .clear, Instr.row (.pushLen 0), Instr.row .build, Instr.row (.lookup 0), Instr.row (.readLen 0),
    Instr.row (.readReg 0)]

/-- The word spells some command: its opcode is assigned and its reserved bits are 0 (R49, R50, R54, R55). -/
def commandWordWf (w : Word) : Bool := opcodeMap.any (fun r => r.spells w)

end Sys2Proof
end

