-- ==== Sys2Proof/Decode.lean ====
section
/-! DEFINITION. The decoding procedure, total on every 32-bit word (R58), and the encoder written from the formats
(R46, R49). A command word is 32 bits with no byte order (R29, R57): the decoder takes the word itself. -/

namespace Sys2Proof

/-- Why a word is no command. Both are answered ILLEGAL (R54, R55); the name only says which rule applies. -/
inductive DecodeError where
  /-- the opcode is 0x0 or 0x7 to 0xF (R55) -/
  | reservedOpcode (op : BitVec 4)
  /-- the opcode is assigned and a reserved bit is 1 (R54) -/
  | reservedBits (op : BitVec 4)
  deriving DecidableEq, Repr

/-- `OP = cmd[31:28]` (R46). -/
def opField (w : Word) : BitVec 4 := w.extractLsb' 28 4

/-- `CLEN = cmd[4:0]` (R49, format L). -/
def clenField (w : Word) : BitVec 5 := w.extractLsb' 0 5

/-- `IDX = cmd[15:0]` (R49, format I). -/
def idxField (w : Word) : BitVec 16 := w.extractLsb' 0 16

/-- `REG = cmd[3:0]` (R49, format R). -/
def regField (w : Word) : BitVec 4 := w.extractLsb' 0 4

/-- The reserved bits of format N, `cmd[27:0]` (R49). -/
def reservedN (w : Word) : BitVec 28 := w.extractLsb' 0 28

/-- The reserved bits of format L, `cmd[27:5]` (R49). -/
def reservedL (w : Word) : BitVec 23 := w.extractLsb' 5 23

/-- The reserved bits of format I, `cmd[27:16]` (R49). -/
def reservedI (w : Word) : BitVec 12 := w.extractLsb' 16 12

/-- The reserved bits of format R, `cmd[27:4]` (R49). -/
def reservedR (w : Word) : BitVec 24 := w.extractLsb' 4 24

/-- The decoding procedure of R58. It reads no state. -/
def decode (w : Word) : Except DecodeError Instr :=
  match (opField w).toNat with
  | 1 => if reservedN w ≠ 0 then .error (.reservedBits (opField w)) else .ok .clear
  | 2 => if reservedL w ≠ 0 then .error (.reservedBits (opField w)) else .ok (.pushLen (clenField w))
  | 3 => if reservedN w ≠ 0 then .error (.reservedBits (opField w)) else .ok .build
  | 4 => if reservedI w ≠ 0 then .error (.reservedBits (opField w)) else .ok (.lookup (idxField w))
  | 5 => if reservedI w ≠ 0 then .error (.reservedBits (opField w)) else .ok (.readLen (idxField w))
  | 6 => if reservedR w ≠ 0 then .error (.reservedBits (opField w)) else .ok (.readReg (regField w))
  | _ => .error (.reservedOpcode (opField w))

/-- The command word of a command: `OP` in bits 31:28, the operand in the low bits of its format, every other bit 0
(R46, R49). -/
def encode : Instr → Word
  | .clear => 0x10000000
  | .pushLen clen => 0x20000000 ||| clen.setWidth 32
  | .build => 0x30000000
  | .lookup idx => 0x40000000 ||| idx.setWidth 32
  | .readLen idx => 0x50000000 ||| idx.setWidth 32
  | .readReg reg => 0x60000000 ||| reg.setWidth 32

/-- The command word that a numbered opcode-table word stands for: the low `nbits` bits of `w`, every bit above them 0.
A row of the table is one 32-bit word whose bit 0 is bit 0 of the number. -/
def tableWord (nbits w : Nat) : Word := BitVec.ofNat 32 (w % 2 ^ nbits)

/-- What the decoder reads from a word numbered as spec/opcode_table.json numbers it. -/
def decodeTableWord (nbits w : Nat) : Option Instr :=
  match decode (tableWord nbits w) with
  | .ok i => some i
  | .error _ => none

end Sys2Proof
end

