-- ==== Sys2Proof/Machine/State.lean ====
section
/-! DEFINITION. The state of the block and of its ports as plain data (R13, R28, R45), the reasons a step can stop,
and the state after reset (R28, R109). -/

namespace Sys2Proof.Machine

/-- `R.STATE`, the table lifecycle (R16). The encoding 3 is "never held" (R16, U16), so it has no constructor. -/
inductive Lifecycle where
  /-- 0: lengths are being collected, no table exists -/
  | loading
  /-- 1: BUILD succeeded, TABLE and MAXBITS hold the table -/
  | ready
  /-- 2: BUILD found the lengths over-subscribed, no table exists -/
  | failed
  deriving DecidableEq, Repr

/-- A table entry: "either INVALID or a pair (sym, len)" (R11, R23). Its 22-bit layout is `Entry.bits`. -/
inductive Entry where
  /-- the sentinel for bit patterns that correspond to no code -/
  | invalid
  /-- symbol ESYM (16 bits) with code length ELEN (5 bits) -/
  | valid (sym : BitVec 16) (len : BitVec 5)
  deriving DecidableEq, Repr

/-- The result codes of R48. The codes 7 to 15 are "never produced" (R48, U15), so they have no constructor. -/
inductive ResultCode where
  | ok
  | illegal
  | badState
  | capacity
  | lengthRange
  | indexRange
  | oversubscribed
  deriving DecidableEq, Repr

/-- The registers READ_REG can name (R24). -/
inductive StatusReg where
  | status
  | nsym
  | maxBits
  | params
  deriving DecidableEq, Repr

/-- A memory of whole entries reached by an index (R26): (index, entry) pairs, kept in the one canonical form
`Memory.wf` (Ops.lean). What an unlisted index reads as is fixed for LEN by log 5 and for TABLE by log 6. -/
abbrev Memory (α : Type) := List (Nat × α)

/-- What the host drives at one rising edge of `clk` (R45, R118). -/
structure HostEdge where
  /-- the pin `rst` -/
  rst : Bool
  /-- `cmd_valid` with the word on `cmd_data`; `none` is `cmd_valid = 0` -/
  cmd : Option Word
  /-- the pin `rsp_ready` -/
  rspReady : Bool
  deriving DecidableEq, Repr

/-- The whole state: the architected state of R13, the response port (R28, R45), and the host's side as plain data.
`cmd_ready` is a wire computed from these (`cmdReady`, Ports.lean). BUILD's working storage is not state: "no command
reads it", "a model may omit" it (R25, U8; log 7). -/
structure State where
  /-- `R.PARAMS` (R20): the configuration, written by nothing -/
  params : Config
  /-- `R.STATE` (R16) -/
  lifecycle : Lifecycle
  /-- `R.COMPLETE` (R17) -/
  complete : Bool
  /-- `R.NSYM` (R18) -/
  nsym : BitVec 16
  /-- `R.MAXBITS` (R19) -/
  maxBits : BitVec 5
  /-- `LEN`, the length memory (R21) -/
  len : Memory (BitVec 5)
  /-- `TABLE`, the decode table memory (R22) -/
  table : Memory Entry
  /-- the response port (R45): `some w` is `rsp_valid = 1` with `rsp_data = w`; `none` is `rsp_valid = 0` -/
  rsp : Option Word
  /-- the MODEL'S own field (log 3): what the host drives at the coming edges, first edge first -/
  edges : List HostEdge
  /-- the MODEL'S own field (log 4): the response words transferred to the host so far, oldest first -/
  sent : List Word
  deriving DecidableEq, Repr

/-- Why the machine stops. The spec has no such stop: every error it names is a result code (R93). These two are the
model's own, for an access to an entry that does not exist (log 9). Both are safe: the model stops where the spec says
nothing, and no run from reset reaches either. -/
inductive Fault where
  /-- LEN has no entry at this index: it is `P_NSYM_MAX` or above (R21, R26). Raised by PUSH_LEN, READ_LEN and BUILD in
  states with `NSYM > P_NSYM_MAX` only. Safe. -/
  | lenIndexAbsent (i : Nat)
  /-- TABLE has no entry at this index: it is `2^P_LMAX` or above (R22, R26). Raised by LOOKUP in states with
  `MAXBITS > P_LMAX` and by BUILD in states whose lengths exceed `P_LMAX`, only. Safe. -/
  | tableIndexAbsent (i : Nat)
  deriving DecidableEq, Repr

/-- Why a step refuses to give a meaning. -/
inductive Refusal where
  /-- no meaning written yet; raised by no command of this model. Safe. -/
  | notModelled (mnemonic : String)
  deriving DecidableEq, Repr

/-- The state reset leaves in a block of configuration `c` (R28, R109): LOADING, COMPLETE 0, NSYM 0, MAXBITS 0, no
response pending, the memories with nothing listed (R28 leaves their contents unspecified and unobservable: log 5,
log 6), and nothing driven or transferred yet (log 3, log 4). -/
def State.resetWith (c : Config) : State :=
  { params := c
    lifecycle := .loading
    complete := false
    nsym := 0
    maxBits := 0
    len := []
    table := []
    rsp := none
    edges := []
    sent := [] }

/-- The machine right after reset, in the default configuration (R7, R8, R28). -/
def State.reset : State := State.resetWith Config.default

end Sys2Proof.Machine
end

