-- ==== Sys2Proof/Machine/Ops.lean ====
section
/-! DEFINITION. The named operations over the memories, the registers and the response port that every meaning is
written with: reading and writing entries, answering (`respond`), refusing (`raise`, the block's only way to report an
error: there is no trap to take and none to return from, R93, R98, R99), and the effect of reset. -/

namespace Sys2Proof.Machine

/-! ### Memories -/

/-- The entry at an index; `d` is what an unlisted index reads as. -/
def Memory.read {α : Type} (d : α) : Memory α → Nat → α
  | [], _ => d
  | (k, v) :: m, i => if k = i then v else Memory.read d m i

/-- Every entry of `lo .. hi-1` becomes `v` (R74, R76); an entry equal to `d` is not listed. -/
def Memory.fill {α : Type} [DecidableEq α] (d : α) (m : Memory α) (lo hi : Nat) (v : α) : Memory α :=
  m.filter (fun c => c.1 < lo) ++
    ((if v = d then [] else (List.range (hi - lo)).map (fun k => (lo + k, v))) ++ m.filter (fun c => hi ≤ c.1))

/-- The entry at one index becomes `v`. -/
def Memory.write {α : Type} [DecidableEq α] (d : α) (m : Memory α) (i : Nat) (v : α) : Memory α :=
  Memory.fill d m i (i + 1) v

/-- The canonical form: indices strictly rising, below `size`, and no entry equal to `d`. -/
def Memory.wf {α : Type} [DecidableEq α] (d : α) (size : Nat) (m : Memory α) : Bool :=
  decide (List.Pairwise (fun a b => a.1 < b.1) m) && m.all (fun c => decide (c.1 < size) && decide (c.2 ≠ d))

/-! ### Register and port updates -/

def State.setLifecycle (s : State) (l : Lifecycle) : State := { s with lifecycle := l }
def State.setComplete (s : State) (b : Bool) : State := { s with complete := b }
def State.setNsym (s : State) (n : BitVec 16) : State := { s with nsym := n }
def State.setMaxBits (s : State) (m : BitVec 5) : State := { s with maxBits := m }
def State.setLen (s : State) (m : Memory (BitVec 5)) : State := { s with len := m }
def State.setTable (s : State) (m : Memory Entry) : State := { s with table := m }
def State.setRsp (s : State) (r : Option Word) : State := { s with rsp := r }
def State.setEdges (s : State) (es : List HostEdge) : State := { s with edges := es }
def State.setSent (s : State) (ws : List Word) : State := { s with sent := ws }

/-! ### The two memories of the block -/

/-- What an entry of LEN that nothing has written reads as. No command can observe it (R21). DESIGN CHOICE, log 5. -/
def unwrittenLen : BitVec 5 := 0

/-- What an entry of TABLE that nothing has written reads as. No command can observe it (R22). DESIGN CHOICE, log 6. -/
def unwrittenEntry : Entry := .invalid

/-- `P_NSYM_MAX`, the number of entries of LEN (R21). -/
def State.lenSize (s : State) : Nat := s.params.nsymMax.toNat

/-- `2^P_LMAX`, the number of entries of TABLE (R8, R22). -/
def State.tableSize (s : State) : Nat := 2 ^ s.params.lmax.toNat

/-- What `LEN[i]` holds. -/
def State.lenAt (s : State) (i : Nat) : BitVec 5 := Memory.read unwrittenLen s.len i

/-- What `TABLE[j]` holds. -/
def State.tableAt (s : State) (j : Nat) : Entry := Memory.read unwrittenEntry s.table j

/-- Read `LEN[i]` (R11); `none` where LEN has no entry `i` (R26). -/
def State.readLen (s : State) (i : Nat) : Option (BitVec 5) :=
  if i < s.lenSize then some (s.lenAt i) else none

/-- `LEN[i] <- v` (R11); `none` where LEN has no entry `i` (R26). -/
def State.writeLen (s : State) (i : Nat) (v : BitVec 5) : Option State :=
  if i < s.lenSize then some (s.setLen (Memory.write unwrittenLen s.len i v)) else none

/-- Read `TABLE[j]` (R11); `none` where TABLE has no entry `j` (R26). -/
def State.readTable (s : State) (j : Nat) : Option Entry :=
  if j < s.tableSize then some (s.tableAt j) else none

/-- The input snapshot `LEN[0 .. NSYM-1]` as numbers, in symbol order (R43, R61). -/
def State.lengths (s : State) : List Nat := (List.range s.nsym.toNat).map (fun i => (s.lenAt i).toNat)

/-- Read `LEN[0 .. NSYM-1]`; `none` where one of these entries does not exist (R26). -/
def State.readLengths (s : State) : Option (List Nat) :=
  if s.nsym.toNat ≤ s.lenSize then some s.lengths else none

/-! ### Answering -/

/-- The number of a result code (R48). -/
def ResultCode.code : ResultCode → BitVec 4
  | .ok => 0
  | .illegal => 1
  | .badState => 2
  | .capacity => 3
  | .lengthRange => 4
  | .indexRange => 5
  | .oversubscribed => 6

/-- The response word: `RC = rsp[31:28]`, `DATA = rsp[27:0]` (R47). -/
def responseWord (rc : ResultCode) (data : Data) : Word := rc.code ++ data

/-- `respond(rc, data)` (R11): the one response of the current command goes to the response port, where it stays until
the host takes it (R45). -/
def respond (rc : ResultCode) (data : Data) (s : State) : State := s.setRsp (some (responseWord rc data))

/-- `raise E` (R11): `respond(E, 0)` and end the command with no change to any architected state. It is all that an error
does (R93, R94, R98); the command after it is accepted in the ordinary way (R99). -/
def raise (e : ResultCode) (s : State) : Host.Outcome State Fault Refusal := .next (respond e 0 s)

/-- The transfer of the pending response word `w` to the host (R45). -/
def State.transferResponse (s : State) (w : Word) : State := (s.setSent (s.sent ++ [w])).setRsp none

/-- Reset (R109, R110): every piece of state takes its reset value, a response not yet transferred is lost, and PARAMS
keeps its constant (R20, R28). What the host drives next and what it has taken are the host's (log 10). -/
def State.applyReset (s : State) : State := ((State.resetWith s.params).setEdges s.edges).setSent s.sent

end Sys2Proof.Machine
end

