-- ==== Sys2Proof/Machine/Operands.lean ====
section
/-! DEFINITION. How operands are read and how values are laid out in response data (R23, R24, R47, R51, R52, R53). -/

namespace Sys2Proof.Machine

/-- `zext_28(v)` (R11). -/
def zext28 {n : Nat} (v : BitVec n) : Data := v.setWidth 28

/-- The 2-bit encoding of `R.STATE` (R16). -/
def Lifecycle.code : Lifecycle → BitVec 2
  | .loading => 0
  | .ready => 1
  | .failed => 2

/-- The 22-bit layout of a table entry: VALID, ELEN, ESYM (R23). -/
def Entry.bits : Entry → BitVec 22
  | .invalid => 0
  | .valid sym len => 1#1 ++ len ++ sym

/-- The register a number names; 4 to 15 are unassigned (R24, R53). -/
def statusReg? (reg : BitVec 4) : Option StatusReg :=
  match reg.toNat with
  | 0 => some .status
  | 1 => some .nsym
  | 2 => some .maxBits
  | 3 => some .params
  | _ => none

/-- `PARAMS`: P_LMAX in bits 20:16, P_NSYM_MAX in bits 15:0 (R20). -/
def paramsBits (c : Config) : BitVec 21 := c.lmax ++ c.nsymMax

/-- The value of a status register, zero-extended to the data field; reserved bits read as 0 (R24, R91). -/
def StatusReg.value (r : StatusReg) (s : State) : Data :=
  match r with
  | .status => zext28 (BitVec.ofBool s.complete ++ s.lifecycle.code)
  | .nsym => zext28 s.nsym
  | .maxBits => zext28 s.maxBits
  | .params => zext28 (paramsBits s.params)

/-- `RC = rsp[31:28]` of a response word (R47). -/
def rcField (w : Word) : BitVec 4 := w.extractLsb' 28 4

/-- `DATA = rsp[27:0]` of a response word (R47). -/
def dataField (w : Word) : Data := w.extractLsb' 0 28

/-- `IDX < 2^MAXBITS`: the index names a slot of the built table (R52, R86). -/
def State.inTable (s : State) (idx : BitVec 16) : Bool := idx.toNat < 1 <<< s.maxBits.toNat

end Sys2Proof.Machine
end

