-- ==== Sys2Proof/Machine/Flags.lean ====
section
/-! DEFINITION. The one flag, COMPLETE (R17), and the two comparisons of the Kraft sum that decide it and the
over-subscription check (R71). -/

namespace Sys2Proof.Machine

/-- "The lengths are over-subscribed exactly when `KSUM > 2^M`" (R71). -/
def overSubscribed (ksum m : Nat) : Bool := ksum > 1 <<< m

/-- COMPLETE after a successful BUILD: 1 when `KSUM = 2^M`, else 0 (R17, R78). -/
def completeFlag (ksum m : Nat) : Bool := ksum = 1 <<< m

/-- The data of BUILD's OK response: COMPLETE in bit 5, M in bits 4:0 (R78). -/
def buildData (complete : Bool) (m : BitVec 5) : Data := zext28 (BitVec.ofBool complete ++ m)

end Sys2Proof.Machine
end

