-- ==== Sys2Proof/Machine/Build.lean ====
section
/-! DEFINITION. BUILD, the code_length_to_table_expander (R65 to R80), step by step under the source's labels S1 to S8,
KC and DG. Every step is a function of the length array `ls` (the snapshot `LEN[0 .. NSYM-1]`, R43) in unbounded
integers: "with these widths every result equals the unbounded one" (R83; log 8). The list ORD is defined by the order
R70 fixes "whatever method computes it" (R82); the source's counting sort stands in CountingSort.lean. -/

namespace Sys2Proof.Machine

/-- S1: `M`, the largest length, 0 if there is none (R67). -/
def maxLength (ls : List Nat) : Nat := ls.foldr max 0

/-- S2: `HIST[l]`, how many symbols have length `l` (R68). -/
def hist (ls : List Nat) (l : Nat) : Nat := ls.count l

/-- S3: `OFFS[l]` for `l ≥ 1`: `OFFS[1] = 0`, `OFFS[l+1] = OFFS[l] + HIST[l]` (R69). -/
def offs (ls : List Nat) : Nat → Nat
  | 0 => 0
  | l + 1 => if l = 0 then 0 else offs ls l + hist ls l

/-- The symbols of length `l`, by ascending symbol index (R70). -/
def symbolsOfLength (ls : List Nat) (l : Nat) : List Nat :=
  (List.range ls.length).filter (fun i => ls.getD i 0 = l)

/-- S4: `ORD`, the coded symbols by ascending length and, within a length, by ascending symbol index (R70). The lengths
run from 1 to `M`; R65 runs them to `P_LMAX`, where "the extra entries are 0 and change nothing" (R68). -/
def ord (ls : List Nat) : List Nat :=
  (List.range (maxLength ls)).flatMap (fun l => symbolsOfLength ls (l + 1))

/-- `orderedCodes`: the pairs `(ORD[k], LEN[ORD[k]])` (R70). -/
def orderedCodes (ls : List Nat) : List (Nat × Nat) := (ord ls).map (fun s => (s, ls.getD s 0))

/-- KC: `KSUM = sum over l in 1..M of (HIST[l] << (M - l))` (R65, R71). -/
def ksum (ls : List Nat) : Nat :=
  ((List.range (maxLength ls)).map (fun l => hist ls (l + 1) <<< (maxLength ls - (l + 1)))).sum

/-- A coded symbol with its canonical code, an `len`-bit number (R72). -/
structure Code where
  sym : Nat
  len : Nat
  code : Nat
  deriving DecidableEq, Repr

/-- S5: the walk over `orderedCodes` with NEXT and BIT (R72, as C1 resolves it): the code is `NEXT << (L - BIT)`, then
`NEXT <- code + 1` and `BIT <- L`. -/
def assignCodes : Nat → Nat → List (Nat × Nat) → List Code
  | _, _, [] => []
  | next, bit, (s, l) :: rest => ⟨s, l, next <<< (l - bit)⟩ :: assignCodes (next <<< (l - bit) + 1) l rest

/-- The canonical codes, in the order of ORD, from `NEXT = 0` and `BIT = 0` (R72). -/
def canonicalCodes (ls : List Nat) : List Code := assignCodes 0 0 (orderedCodes ls)

/-- `lo = code << (M - L)` (R75). -/
def Code.lo (m : Nat) (c : Code) : Nat := c.code <<< (m - c.len)

/-- `hi = (code + 1) << (M - L)` (R75). -/
def Code.hi (m : Nat) (c : Code) : Nat := (c.code + 1) <<< (m - c.len)

/-- The entry `(s, L)` in the widths of R23. A symbol index is below `NSYM`, 16 bits, and a length is 5 bits, so nothing
is cut off (R83). -/
def codeEntry (sym len : Nat) : Entry := .valid (BitVec.ofNat 16 sym) (BitVec.ofNat 5 len)

/-- S7: the fan-out fill of `[lo, hi)` for each code in turn (R75, R76). -/
def fanOut (m : Nat) (cs : List Code) (t : Memory Entry) : Memory Entry :=
  cs.foldl (fun t c => Memory.fill unwrittenEntry t (c.lo m) (c.hi m) (codeEntry c.sym c.len)) t

/-- DG: when `K = 1` and `M = 1`, `TABLE[1] <- (ORD[0], 1)` (R77, as C3 resolves it). -/
def fillDegenerate (m : Nat) (symbols : List Nat) (t : Memory Entry) : Memory Entry :=
  match symbols with
  | [s] => if m = 1 then Memory.write unwrittenEntry t 1 (codeEntry s 1) else t
  | _ => t

/-- S6, S5, S7 and DG: what TABLE holds after BUILD. Entries at `2^M` and above are not written (R74). -/
def expandTable (ls : List Nat) (t : Memory Entry) : Memory Entry :=
  let m := maxLength ls
  fillDegenerate m (ord ls) (fanOut m (canonicalCodes ls) (Memory.fill unwrittenEntry t 0 (1 <<< m) .invalid))

/-- The registers BUILD writes when it ends (R78, R79). -/
def State.endBuild (s : State) (l : Lifecycle) (m : BitVec 5) (c : Bool) : State :=
  ((s.setLifecycle l).setMaxBits m).setComplete c

/-- Write `TABLE[0 .. 2^M - 1]`; `none` where one of these entries does not exist (R26). -/
def State.writeTable (s : State) (ls : List Nat) : Option State :=
  if 1 <<< maxLength ls ≤ s.tableSize then some (s.setTable (expandTable ls s.table)) else none

/-- BUILD after the state check, on the lengths read: KC, the table, and the result (R71, R78, R79). -/
def buildFrom (ls : List Nat) (s : State) : Host.Outcome State Fault Refusal :=
  if overSubscribed (ksum ls) (maxLength ls) then .next (respond .oversubscribed 0 (s.endBuild .failed 0 false))
  else
    match s.writeTable ls with
    | none => .fault (.tableIndexAbsent s.tableSize)
    | some t =>
      .next
        (respond .ok (buildData (completeFlag (ksum ls) (maxLength ls)) (BitVec.ofNat 5 (maxLength ls)))
          (t.endBuild .ready (BitVec.ofNat 5 (maxLength ls)) (completeFlag (ksum ls) (maxLength ls))))

/-- BUILD (R65, R66): construct the decode table from the stored lengths. -/
def execBuild (s : State) : Host.Outcome State Fault Refusal :=
  if s.lifecycle ≠ .loading then raise .badState s
  else
    match s.readLengths with
    | none => .fault (.lenIndexAbsent s.lenSize)
    | some ls => buildFrom ls s

end Sys2Proof.Machine
end

