-- ==== Sys2Proof/Machine/Control.lean ====
section
/-! DEFINITION. The control commands CLEAR and READ_REG (R89 to R92). -/

namespace Sys2Proof.Machine

/-- CLEAR (R89): discard the input and the table. LEN and TABLE keep what they hold, which no command can read. -/
def execClear (s : State) : Host.Outcome State Fault Refusal :=
  .next (respond .ok 0 ((((s.setLifecycle .loading).setNsym 0).setMaxBits 0).setComplete false))

/-- READ_REG (R91): read one status register, in every STATE; ILLEGAL for an unassigned number. -/
def execReadReg (reg : BitVec 4) (s : State) : Host.Outcome State Fault Refusal :=
  match statusReg? reg with
  | some r => .next (respond .ok (r.value s) s)
  | none => raise .illegal s

end Sys2Proof.Machine
end

