-- ==== Sys2Proof/Machine/LengthInput.lean ====
section
/-! DEFINITION. The length input commands PUSH_LEN and READ_LEN (R61 to R64). -/

namespace Sys2Proof.Machine

/-- PUSH_LEN (R62): append one code length. The checks are made in the order written there (R97). -/
def execPushLen (clen : BitVec 5) (s : State) : Host.Outcome State Fault Refusal :=
  if s.lifecycle ≠ .loading then raise .badState s
  else if s.nsym = s.params.nsymMax then raise .capacity s
  else if s.params.lmax < clen then raise .lengthRange s
  else
    match s.writeLen s.nsym.toNat clen with
    | none => .fault (.lenIndexAbsent s.nsym.toNat)
    | some t => .next (respond .ok (zext28 (s.nsym + 1)) (t.setNsym (s.nsym + 1)))

/-- READ_LEN (R64): read back one stored length, in every STATE. -/
def execReadLen (idx : BitVec 16) (s : State) : Host.Outcome State Fault Refusal :=
  if s.nsym ≤ idx then raise .indexRange s
  else
    match s.readLen idx.toNat with
    | none => .fault (.lenIndexAbsent idx.toNat)
    | some v => .next (respond .ok (zext28 v) s)

end Sys2Proof.Machine
end

