-- ==== Sys2Proof/Machine/Lookup.lean ====
section
/-! DEFINITION. LOOKUP, the read port of the huffman_decoder_lut (R85 to R88). -/

namespace Sys2Proof.Machine

/-- LOOKUP (R85): read one entry of the built table. The state check comes before the range check (R86, R97). An INVALID
entry is answered OK with VALID = 0 (R87). -/
def execLookup (idx : BitVec 16) (s : State) : Host.Outcome State Fault Refusal :=
  if s.lifecycle ≠ .ready then raise .badState s
  else if !s.inTable idx then raise .indexRange s
  else
    match s.readTable idx.toNat with
    | none => .fault (.tableIndexAbsent idx.toNat)
    | some e => .next (respond .ok (zext28 e.bits) s)

end Sys2Proof.Machine
end

