-- ==== Sys2Proof/Machine/Dispatch.lean ====
section
/-! DEFINITION. One arm per command: its meaning (R50). -/

namespace Sys2Proof.Machine

/-- What the block does on an accepted command. -/
def exec (i : Instr) (s : State) : Host.Outcome State Fault Refusal :=
  match i with
  | .clear => Sys2Proof.Machine.execClear s
  | .pushLen clen => Sys2Proof.Machine.execPushLen clen s
  | .build => Sys2Proof.Machine.execBuild s
  | .lookup idx => Sys2Proof.Machine.execLookup idx s
  | .readLen idx => Sys2Proof.Machine.execReadLen idx s
  | .readReg reg => Sys2Proof.Machine.execReadReg reg s

end Sys2Proof.Machine
end

