-- ==== Sys2Proof/Machine/Ports.lean ====
section
/-! DEFINITION. The ports at a rising edge of `clk` (R45, R101, R109, R110, R118). The edges between the one that accepts
a command and the one at which its response is offered are not steps: nothing is transferred at them, and their number is
not specified (R116; log 2). -/

namespace Sys2Proof.Machine

/-- The output `cmd_ready`: 0 under reset and while a command's response has not been transferred, else 1 (R45, R109). -/
def cmdReady (s : State) (e : HostEdge) : Bool := !e.rst && s.rsp.isNone

/-- The output `rsp_valid` (R45). -/
def rspValid (s : State) : Bool := s.rsp.isSome

/-- The command word transferred at this edge, if one is: `cmd_valid` and `cmd_ready` are 1 and `rst` is 0 (R45). -/
def commandAccepted (s : State) (e : HostEdge) : Option Word := if cmdReady s e then e.cmd else none

/-- The response word transferred at this edge, if one is: `rsp_valid` and `rsp_ready` are 1 and `rst` is 0 (R45). -/
def responseTaken (s : State) (e : HostEdge) : Option Word := if !e.rst && e.rspReady then s.rsp else none

/-- An accepted command word: the command it spells is executed, and a word that spells none is answered ILLEGAL
(R54, R55, R58). -/
def runCommandWord (w : Word) (s : State) : Host.Outcome State Fault Refusal :=
  match decode w with
  | .ok i => exec i s
  | .error _ => raise .illegal s

/-- One rising edge: reset first (R101), then the transfer of a response, then the acceptance of a command (these two
cannot meet, since `cmd_ready` is 0 while a response is pending, R45); with no transfer every piece of state keeps its
value (R108). -/
def clockEdge (e : HostEdge) (s : State) : Host.Outcome State Fault Refusal :=
  if e.rst then .next s.applyReset
  else
    match responseTaken s e with
    | some w => .next (s.transferResponse w)
    | none =>
      match commandAccepted s e with
      | some w => runCommandWord w s
      | none => .next s

/-- The next edge the host drives, and what it leaves to come. With nothing driven the block is idle and every piece of
state keeps its value (R108). -/
def nextEdge (s : State) : Host.Outcome State Fault Refusal :=
  match s.edges with
  | [] => .next s
  | e :: rest => clockEdge e (s.setEdges rest)

/-- The host offers the word `w` at the very next edge, at which the command port is ready. -/
def State.offerCommand (s : State) (w : Word) : State :=
  (s.setRsp none).setEdges (⟨false, some w, false⟩ :: s.edges)

end Sys2Proof.Machine
end

