-- ==== Sys2Proof/Machine/Step.lean ====
section
/-! DEFINITION. One step of the machine: one rising edge of `clk` that is not spent executing a command (R45, log 2). -/

namespace Sys2Proof.Machine

/-- One step: the next edge the host drives (Ports.lean). -/
def step (s : State) : Host.Outcome State Fault Refusal := nextEdge s

/-- The state in which the next step accepts and runs the given opcode-table word: it stands on the command port, and no
response is pending, so that the port is ready for it (R45). The block fetches no instruction: the host presents each
command (R15, R41; log 3). -/
def State.withFetchWord (s : State) (nbits w : Nat) : State := s.offerCommand (tableWord nbits w)

end Sys2Proof.Machine
end

