-- ==== Sys2Proof/Machine/Assembler.lean ====
section
/-! DEFINITION. The pseudo-instructions (R60) and the assembler's lines (R59), on lists of characters. They are notation:
no state of the block depends on them. -/

namespace Sys2Proof.Machine

/-! ### Pseudo-instructions (R60) -/

/-- `LOAD_LENGTHS l0, …, lk`: CLEAR, then one PUSH_LEN a length. -/
def loadLengths (ls : List (BitVec 5)) : List Instr := .clear :: ls.map .pushLen

/-- `BUILD_TABLE l0, …, lk`: LOAD_LENGTHS, then BUILD. -/
def buildTable (ls : List (BitVec 5)) : List Instr := loadLengths ls ++ [.build]

/-- `DUMP_TABLE`: LOOKUP of every index below `2^M`, `M` being the MAXBITS the preceding BUILD returned. -/
def dumpTable (m : BitVec 5) : List Instr := (List.range (1 <<< m.toNat)).map (fun j => .lookup (BitVec.ofNat 16 j))

/-- A list of commands executed in order, each seeing exactly the state the one before it left (R36, R38), with every
response taken. -/
def execAll : List Instr → State → Host.Outcome State Fault Refusal
  | [], s => .next s
  | i :: rest, s =>
    match exec i s with
    | .next t => execAll rest t
    | .fault f => .fault f
    | .refused r => .refused r

/-! ### Assembler lines (R59) -/

/-- The value of a digit character in a base up to 16. -/
def digitValue? (base : Nat) (c : Char) : Option Nat :=
  let v :=
    if '0' ≤ c ∧ c ≤ '9' then c.toNat - '0'.toNat
    else if 'a' ≤ c ∧ c ≤ 'f' then c.toNat - 'a'.toNat + 10
    else if 'A' ≤ c ∧ c ≤ 'F' then c.toNat - 'A'.toNat + 10
    else 16
  if v < base then some v else none

/-- The number a list of digits writes, most significant first, after the digits read so far. -/
def digitsValue? (base : Nat) : Nat → List Char → Option Nat
  | acc, [] => some acc
  | acc, c :: cs => (digitValue? base c).bind (fun v => digitsValue? base (base * acc + v) cs)

/-- A number: decimal, or hexadecimal after `0x`, or binary after `0b`. -/
def number? : List Char → Option Nat
  | [] => none
  | '0' :: 'x' :: c :: cs => digitsValue? 16 0 (c :: cs)
  | '0' :: 'b' :: c :: cs => digitsValue? 2 0 (c :: cs)
  | cs => digitsValue? 10 0 cs

/-- The register names READ_REG also accepts. -/
def registerName? (cs : List Char) : Option Nat :=
  if cs = ['S', 'T', 'A', 'T', 'U', 'S'] then some 0
  else if cs = ['N', 'S', 'Y', 'M'] then some 1
  else if cs = ['M', 'A', 'X', 'B', 'I', 'T', 'S'] then some 2
  else if cs = ['P', 'A', 'R', 'A', 'M', 'S'] then some 3
  else none

/-- A number that fits the `n` bits of its field; a wider one is no operand (log 13). -/
def operand? (n : Nat) (v : Option Nat) : Option (BitVec n) :=
  v.bind (fun k => if k < 2 ^ n then some (BitVec.ofNat n k) else none)

/-- The words of a line, split at spaces; a comment starts with `;` and runs to the end of the line. -/
def lineWords : List Char → List Char → List (List Char)
  | cur, [] => if cur = [] then [] else [cur.reverse]
  | cur, c :: cs =>
    if c = ';' then (if cur = [] then [] else [cur.reverse])
    else if c = ' ' then (if cur = [] then lineWords [] cs else cur.reverse :: lineWords [] cs)
    else lineWords (c :: cur) cs

/-- One line of assembler: mnemonic, then operand (R59); `none` for a line that is no command. -/
def assemble? (line : List Char) : Option Instr :=
  match lineWords [] line with
  | [m] =>
    if m = ['C', 'L', 'E', 'A', 'R'] then some .clear
    else if m = ['B', 'U', 'I', 'L', 'D'] then some .build
    else none
  | [m, a] =>
    if m = ['P', 'U', 'S', 'H', '_', 'L', 'E', 'N'] then (operand? 5 (number? a)).map .pushLen
    else if m = ['L', 'O', 'O', 'K', 'U', 'P'] then (operand? 16 (number? a)).map .lookup
    else if m = ['R', 'E', 'A', 'D', '_', 'L', 'E', 'N'] then (operand? 16 (number? a)).map .readLen
    else if m = ['R', 'E', 'A', 'D', '_', 'R', 'E', 'G'] then
      (operand? 4 ((number? a).orElse (fun _ => registerName? a))).map .readReg
    else none
  | _ => none

end Sys2Proof.Machine
end

