-- ==== Sys2Proof/Machine/CountingSort.lean ====
section
/-! DEFINITION. The other methods R82 allows: the source's counting sort for ORD (R65 steps S2 to S4, R68 to R70), with
its histogram, prefix sums and cursors run to `P_LMAX`, and the per-level recurrence for the over-subscription check.
BUILD does not use them; the obligations say that they give what BUILD computes. -/

namespace Sys2Proof.Machine

/-- The cursors CUR[0 .. P_LMAX] before the scatter: `CUR[l] <- OFFS[l]` (R65 S4). Index 0 is not used. -/
def cursors (lmax : Nat) (ls : List Nat) : List Nat := (List.range (lmax + 1)).map (offs ls)

/-- One symbol `i` of length `l` scattered: `ORD[CUR[l]] <- i`, `CUR[l] <- CUR[l] + 1`, nothing for length 0 (R65 S4). -/
def scatterSymbol (curOrd : List Nat × List Nat) (i l : Nat) : List Nat × List Nat :=
  if 0 < l then
    (curOrd.1.set l (curOrd.1.getD l 0 + 1), curOrd.2.set (curOrd.1.getD l 0) i)
  else curOrd

/-- The scatter of the symbols `i, i+1, …` whose lengths are listed, in ascending symbol order (R70). -/
def scatterFrom : Nat → List Nat → List Nat × List Nat → List Nat × List Nat
  | _, [], curOrd => curOrd
  | i, l :: rest, curOrd => scatterFrom (i + 1) rest (scatterSymbol curOrd i l)

/-- ORD by the counting sort: `K = OFFS[P_LMAX+1]` slots, filled by the scatter (R65 S2 to S4). -/
def countingSortOrd (lmax : Nat) (ls : List Nat) : List Nat :=
  (scatterFrom 0 ls (cursors lmax ls, List.replicate (offs ls (lmax + 1)) 0)).2

/-- The codes left at each level: `left_0 = 1`, `left_l = 2 * left_(l-1) - HIST[l]` (R82). It may fall below 0. -/
def codesLeft (ls : List Nat) : Nat → Int
  | 0 => 1
  | l + 1 => 2 * codesLeft ls l - (hist ls (l + 1) : Int)

end Sys2Proof.Machine
end

