-- ==== Sys2Proof/Safety.lean ====
section
/-! DEFINITION. What counts as a right table, the invariant of the block's states (R27), what the host can see of a state
(R21, R22, R107), and the result codes each command may answer (R96), in the terms the claims use. -/

namespace Sys2Proof.Machine

/-! ### The table the spec defines from a length array -/

/-- KSUM summed over the symbols: `sum over s with LEN[s] > 0 of 2^(M - LEN[s])` (R71). BUILD sums over the histogram. -/
def kraftSum (ls : List Nat) : Nat := ((ls.filter (fun l => 0 < l)).map (fun l => 2 ^ (maxLength ls - l))).sum

/-- Exactly one symbol has a nonzero length and that length is 1 (R12, R77). -/
def degenerate (ls : List Nat) : Bool := ls.filter (fun l => 0 < l) = [1]

/-- The top `L` bits of the `M`-bit index are the code: "`j >> (M - L_k) = code_k`" (R30, R75). -/
def Code.covers (m : Nat) (c : Code) (j : Nat) : Bool := j >>> (m - c.len) = c.code

/-- What `TABLE[j]` must hold for `j < 2^M`: the entry of the code the index begins with, else INVALID (R75, R76), but for
the second slot of a degenerate code (R77). BUILD does not search: it fills ranges. -/
def tableSpec (ls : List Nat) (j : Nat) : Entry :=
  match (canonicalCodes ls).find? (fun c => c.covers (maxLength ls) j) with
  | some c => codeEntry c.sym c.len
  | none => if degenerate ls && j = 1 then codeEntry ((ord ls).headD 0) 1 else .invalid

/-! ### The invariant -/

/-- A response word has one of the seven result codes, and DATA 0 unless the code is OK (R47, R48). -/
def responseWf (w : Word) : Bool := rcField w ≤ 6 && (rcField w = 0 || dataField w = 0)

/-- What holds in every state reached from reset (R27), and what the model's data adds: the configuration is legal, both
memories are in canonical form within their sizes, FAILED stands for over-subscribed lengths, and a pending response is
well formed. -/
structure Inv (s : State) : Prop where
  config : s.params.wf = true
  nsym_le : s.nsym.toNat ≤ s.lenSize
  length_le : ∀ l ∈ s.lengths, l ≤ s.params.lmax.toNat
  no_table : s.lifecycle ≠ .ready → s.maxBits = 0 ∧ s.complete = false
  ready_maxBits : s.lifecycle = .ready → s.maxBits.toNat = maxLength s.lengths
  ready_kraft : s.lifecycle = .ready → kraftSum s.lengths ≤ 2 ^ s.maxBits.toNat
  ready_complete : s.lifecycle = .ready → s.complete = decide (kraftSum s.lengths = 2 ^ s.maxBits.toNat)
  ready_table : s.lifecycle = .ready → ∀ j < 2 ^ s.maxBits.toNat, s.tableAt j = tableSpec s.lengths j
  failed_kraft : s.lifecycle = .failed → 2 ^ maxLength s.lengths < kraftSum s.lengths
  len_wf : Memory.wf unwrittenLen s.lenSize s.len = true
  table_wf : Memory.wf unwrittenEntry s.tableSize s.table = true
  response_wf : s.rsp.all responseWf = true

/-! ### What the host can see -/

/-- Two states that differ at most in what no command can read: entries of LEN at `NSYM` and above, TABLE outside READY,
and entries of TABLE at `2^MAXBITS` and above (R21, R22, U6, U7). -/
structure SameToHost (a b : State) : Prop where
  params : a.params = b.params
  lifecycle : a.lifecycle = b.lifecycle
  complete : a.complete = b.complete
  nsym : a.nsym = b.nsym
  maxBits : a.maxBits = b.maxBits
  len : ∀ i < a.nsym.toNat, a.lenAt i = b.lenAt i
  table : a.lifecycle = .ready → ∀ j < 2 ^ a.maxBits.toNat, a.tableAt j = b.tableAt j
  rsp : a.rsp = b.rsp
  edges : a.edges = b.edges
  sent : a.sent = b.sent

/-- Two outcomes the host cannot tell apart. -/
def sameOutcome : Host.Outcome State Fault Refusal → Host.Outcome State Fault Refusal → Prop
  | .next a, .next b => SameToHost a b
  | .fault f, .fault g => f = g
  | .refused r, .refused q => r = q
  | _, _ => False

/-! ### The result codes of each command -/

/-- The result codes a command may answer, each with its cause (R96). -/
def mayAnswer (i : Instr) (s : State) (rc : ResultCode) : Prop :=
  match i with
  | .clear => rc = .ok
  | .pushLen clen =>
    rc = .ok ∨ (rc = .badState ∧ s.lifecycle ≠ .loading) ∨ (rc = .capacity ∧ s.nsym = s.params.nsymMax) ∨
      (rc = .lengthRange ∧ s.params.lmax.toNat < clen.toNat)
  | .build =>
    rc = .ok ∨ (rc = .badState ∧ s.lifecycle ≠ .loading) ∨
      (rc = .oversubscribed ∧ 2 ^ maxLength s.lengths < kraftSum s.lengths)
  | .lookup idx =>
    rc = .ok ∨ (rc = .badState ∧ s.lifecycle ≠ .ready) ∨ (rc = .indexRange ∧ 2 ^ s.maxBits.toNat ≤ idx.toNat)
  | .readLen idx => rc = .ok ∨ (rc = .indexRange ∧ s.nsym.toNat ≤ idx.toNat)
  | .readReg reg => rc = .ok ∨ (rc = .illegal ∧ 4 ≤ reg.toNat)

end Sys2Proof.Machine
end

