-- ==== Sys2Proof/Certificates/Slice0/Obligations.lean ====
section
/-! DEFINITION. The statements for the provers. Numbers are written as the rules write them; `ls` is a length array (the
snapshot `LEN[0 .. NSYM-1]`). A statement about every state holds of states no run reaches too; where it needs a clause of
the invariant (`NSYM ≤ P_NSYM_MAX`, lengths at most `P_LMAX`), the clause is a hypothesis. -/

open Sys2Proof Sys2Proof.Machine

/-! ### Encoding -/

/-- Command words written out bit by bit from R49 and R50 decode to the commands they stand for, and reserved words to
none (R54, R55). -/
def Obligations.WrittenOutWordsDecode : Prop :=
  decode 0b0001_0000000000000000000000000000 = .ok .clear ∧
  decode 0b0010_00000000000000000000000_01111 = .ok (.pushLen 15) ∧
  decode 0b0011_0000000000000000000000000000 = .ok .build ∧
  decode 0b0100_000000000000_0000000000000101 = .ok (.lookup 5) ∧
  decode 0b0101_000000000000_1000000000000001 = .ok (.readLen 0x8001) ∧
  decode 0b0110_000000000000000000000000_0011 = .ok (.readReg 3) ∧
  decode 0x00000000 = .error (.reservedOpcode 0) ∧
  decode 0x70000000 = .error (.reservedOpcode 7) ∧
  decode 0x38000000 = .error (.reservedBits 3) ∧
  decode 0x20000020 = .error (.reservedBits 2)

/-- Decoding the word of any command gives the command back, with every operand. -/
def Obligations.DecodeOfEncode : Prop := ∀ i : Instr, decode (encode i) = .ok i

/-- A word that decodes to a command is that command's word: no bit of it is dropped. -/
def Obligations.EncodeOfDecode : Prop := ∀ (w : Word) (i : Instr), decode w = .ok i → encode i = w

/-- R50: the mask and match columns say exactly which words spell each command, and the reserved opcodes spell none. -/
def Obligations.DecodeAgreesWithOpcodeMap : Prop :=
  ∀ w : Word,
    (w &&& 0xFFFFFFFF = 0x10000000 ↔ decode w = .ok .clear) ∧
    (w &&& 0xFFFFFFE0 = 0x20000000 ↔ ∃ clen, decode w = .ok (.pushLen clen)) ∧
    (w &&& 0xFFFFFFFF = 0x30000000 ↔ decode w = .ok .build) ∧
    (w &&& 0xFFFF0000 = 0x40000000 ↔ ∃ idx, decode w = .ok (.lookup idx)) ∧
    (w &&& 0xFFFF0000 = 0x50000000 ↔ ∃ idx, decode w = .ok (.readLen idx)) ∧
    (w &&& 0xFFFFFFF0 = 0x60000000 ↔ ∃ reg, decode w = .ok (.readReg reg)) ∧
    (opField w = 0x0 ∨ 0x7 ≤ opField w → ∃ e, decode w = .error e)

/-- R56: every word is either exactly one command or illegal, and the rows of the opcode map do not overlap. -/
def Obligations.EveryWordIsOneCommandOrIllegal : Prop :=
  ∀ w : Word,
    ((∃ i, decode w = .ok i ∧ ∀ k, encode k = w → k = i) ∧ (opcodeMap.filter (fun r => r.spells w)).length = 1) ∨
    ((∃ e, decode w = .error e) ∧ (∀ k, encode k ≠ w) ∧ commandWordWf w = false)

/-! ### Ports, step and reset -/

/-- When a word on the ready command port decodes to a command, the step is that command's meaning at the state whose
host-driven edges (the model's own field, log 3) have moved on by one, and which is otherwise the same. -/
def Obligations.StepRunsTheDecodedCommand : Prop :=
  ∀ (s : State) (w : Word) (r : Bool) (rest : List HostEdge) (i : Instr),
    s.rsp = none → s.edges = ⟨false, some w, r⟩ :: rest → decode w = .ok i →
    step s = exec i { s with edges := rest }

/-- `withFetchWord` puts a word where the very next step accepts and runs it, in any state
(the model's choice of how a word is placed, log 3). -/
def Obligations.FetchWordRunsNext : Prop :=
  ∀ (s : State) (nbits w : Nat) (i : Instr), decodeTableWord nbits w = some i →
    step (s.withFetchWord nbits w) = exec i { s with rsp := none }

/-- A word with a reserved opcode, or with a reserved bit that is 1, is answered ILLEGAL (0x10000000) and changes no state
of the block (R54, R55). That the step consumes one host-driven edge (`edges := rest`) is the model's choice (log 2, log 3). -/
def Obligations.ReservedWordsAnswerIllegal : Prop :=
  ∀ (s : State) (w : Word) (r : Bool) (rest : List HostEdge),
    s.rsp = none → s.edges = ⟨false, some w, r⟩ :: rest →
    (w.extractLsb' 28 4 = 0x0 ∨ 0x7 ≤ w.extractLsb' 28 4 ∨
      (w.extractLsb' 28 4 = 0x1 ∧ w.extractLsb' 0 28 ≠ 0) ∨
      (w.extractLsb' 28 4 = 0x2 ∧ w.extractLsb' 5 23 ≠ 0) ∨
      (w.extractLsb' 28 4 = 0x3 ∧ w.extractLsb' 0 28 ≠ 0) ∨
      (w.extractLsb' 28 4 = 0x4 ∧ w.extractLsb' 16 12 ≠ 0) ∨
      (w.extractLsb' 28 4 = 0x5 ∧ w.extractLsb' 16 12 ≠ 0) ∨
      (w.extractLsb' 28 4 = 0x6 ∧ w.extractLsb' 4 24 ≠ 0)) →
    step s = .next { s with rsp := some 0x10000000, edges := rest }

/-- R28: the reset value of every piece of state, in every configuration and in the default one; the response port is
empty and the command port ready; no entry of LEN or TABLE can be observed. -/
def Obligations.ResetValues : Prop :=
  State.reset = State.resetWith ⟨288, 15⟩ ∧
  ∀ c : Config,
    (State.resetWith c).lifecycle = .loading ∧ (State.resetWith c).complete = false ∧ (State.resetWith c).nsym = 0 ∧
    (State.resetWith c).maxBits = 0 ∧ (State.resetWith c).params = c ∧ (State.resetWith c).rsp = none ∧
    (∀ e : HostEdge, e.rst = false → cmdReady (State.resetWith c) e = true) ∧
    (∀ idx, exec (.readLen idx) (State.resetWith c) = .next { State.resetWith c with rsp := some 0x50000000 }) ∧
    ∀ idx, exec (.lookup idx) (State.resetWith c) = .next { State.resetWith c with rsp := some 0x20000000 }

/-- At an edge with `rst` 1 (R101, R109), whatever else the host drives and whatever the block was doing, every piece of
state takes its reset value, no word is transferred on either port (`cmd_ready` is 0), and `cmd_ready` is 1 at the
first edge after with `rst` 0. No entry of LEN or TABLE can be observed after it. PARAMS stays (R28). The list of coming
edges and the words taken are the model's own fields, and that they stay is the model's choice (log 3, log 10). -/
def Obligations.ResetEdgeSetsResetState : Prop :=
  ∀ (s : State) (e : HostEdge) (rest : List HostEdge),
    s.edges = e :: rest → e.rst = true →
    cmdReady s e = false ∧ commandAccepted s e = none ∧ responseTaken s e = none ∧
    ∃ t, step s = .next t ∧
      t.lifecycle = .loading ∧ t.complete = false ∧ t.nsym = 0 ∧ t.maxBits = 0 ∧ t.rsp = none ∧
      t.params = s.params ∧ t.edges = rest ∧ t.sent = s.sent ∧
      (∀ e' : HostEdge, e'.rst = false → cmdReady t e' = true) ∧
      (∀ idx, exec (.readLen idx) t = .next { t with rsp := some 0x50000000 }) ∧
      ∀ idx, exec (.lookup idx) t = .next { t with rsp := some 0x20000000 }

/-- A command accepted and then met by reset before its response is transferred leaves nothing: the state is the reset
state, the host gets no response, and no table is visible (R110). That the two edges are two steps is the model's choice
(log 2, log 3), that the words taken stand in `sent` is (log 4), and that reset lists nothing in LEN and TABLE, whose
contents the spec leaves unspecified, and keeps the host's fields is (log 10). -/
def Obligations.ResetAbandonsTheCommand : Prop :=
  ∀ (s : State) (w : Word) (r : Bool) (e : HostEdge) (rest : List HostEdge),
    Inv s → s.rsp = none → s.edges = ⟨false, some w, r⟩ :: e :: rest → e.rst = true →
    ∃ t, core.run 2 s = .next t ∧ t = { State.resetWith s.params with edges := rest, sent := s.sent } ∧
      ∀ idx, exec (.lookup idx) t = .next { t with rsp := some 0x20000000 }

/-- While a response is pending no command is accepted; the response is transferred at the first edge at which the host
is ready for it, and until then it stays with its data unchanged (R45). -/
def Obligations.ResponseHeldUntilTaken : Prop :=
  ∀ (s : State) (w : Word) (e : HostEdge) (rest : List HostEdge),
    s.rsp = some w → s.edges = e :: rest → e.rst = false →
    cmdReady s e = false ∧
    (e.rspReady = true → step s = .next { s with rsp := none, sent := s.sent ++ [w], edges := rest }) ∧
    (e.rspReady = false → step s = .next { s with edges := rest })

/-- With no command outstanding the block is idle with `cmd_ready` 1 (outside reset), and every piece of state keeps its
value while idle (R108). That an idle edge is consumed (`edges := rest`), and that a step with no edge left to drive answers
the state itself, are the model's choice (log 3). -/
def Obligations.IdleBlockKeepsItsState : Prop :=
  ∀ s : State, s.rsp = none →
    (∀ e : HostEdge, e.rst = false → cmdReady s e = true) ∧
    (s.edges = [] → step s = .next s) ∧
    ∀ (r : Bool) (rest : List HostEdge), s.edges = ⟨false, none, r⟩ :: rest → step s = .next { s with edges := rest }

/-- Each accepted command puts exactly one response on the empty response port, and responses leave it one at a time in
order: a step accepts a command, transfers the pending response, resets, or transfers nothing (R38, R45). -/
def Obligations.OneResponseForEachCommand : Prop :=
  ∀ (s t : State) (e : HostEdge) (rest : List HostEdge), s.edges = e :: rest → step s = .next t →
    (e.rst = true ∧ t.rsp = none ∧ t.sent = s.sent) ∨
    (∃ w, commandAccepted s e = some w ∧ s.rsp = none ∧ t.rsp.isSome = true ∧ t.sent = s.sent) ∨
    (∃ w, responseTaken s e = some w ∧ s.rsp = some w ∧ t.rsp = none ∧ t.sent = s.sent ++ [w]) ∨
    (commandAccepted s e = none ∧ responseTaken s e = none ∧ t = { s with edges := rest })

/-- R20: PARAMS is what the configuration says, and no step writes it; READ_REG 3 reads it. -/
def Obligations.ParamsNeverWritten : Prop :=
  (∀ s t : State, step s = .next t → t.params = s.params) ∧
  ∀ s : State, ∃ d : Data,
    d.extractLsb' 0 16 = s.params.nsymMax ∧ d.extractLsb' 16 5 = s.params.lmax ∧ d.extractLsb' 21 7 = 0 ∧
    exec (.readReg 3) s = .next { s with rsp := some (responseWord .ok d) }

/-! ### The commands -/

/-- R89: CLEAR, in every state: its encoding, the four registers it writes and the values, the response 0x00000000, and
everything else (LEN and TABLE among it) as it was; no entry of LEN or TABLE is readable afterwards; no other command
leaves READY or FAILED. -/
def Obligations.ClearStartsANewConstruction : Prop :=
  (∀ w : Word, opField w = 0x1 →
    decode w = if w.extractLsb' 0 28 = 0 then .ok .clear else .error (.reservedBits 0x1)) ∧
  ∀ s : State, ∃ t,
    exec .clear s = .next t ∧
    t = { s with lifecycle := .loading, nsym := 0, maxBits := 0, complete := false, rsp := some 0x00000000 } ∧
    (∀ idx, exec (.readLen idx) t = .next { t with rsp := some 0x50000000 }) ∧
    (∀ idx, exec (.lookup idx) t = .next { t with rsp := some 0x20000000 }) ∧
    ∀ (i : Instr) (u : State), s.lifecycle ≠ .loading → exec i s = .next u → u.lifecycle ≠ s.lifecycle → i = .clear

/-- R62: PUSH_LEN: its encoding, its three refusals in their order, and, where none applies, `LEN[NSYM] <- CLEN`,
`NSYM <- NSYM + 1`, the new NSYM answered, every other entry of LEN and everything else as it was. -/
def Obligations.PushLenAppendsOneLength : Prop :=
  (∀ w : Word, opField w = 0x2 →
    decode w = if w.extractLsb' 5 23 = 0 then .ok (.pushLen (w.extractLsb' 0 5)) else .error (.reservedBits 0x2)) ∧
  ∀ (s : State) (clen : BitVec 5),
    (s.lifecycle ≠ .loading → exec (.pushLen clen) s = .next { s with rsp := some 0x20000000 }) ∧
    (s.lifecycle = .loading → s.nsym = s.params.nsymMax →
      exec (.pushLen clen) s = .next { s with rsp := some 0x30000000 }) ∧
    (s.lifecycle = .loading → s.nsym ≠ s.params.nsymMax → s.params.lmax.toNat < clen.toNat →
      exec (.pushLen clen) s = .next { s with rsp := some 0x40000000 }) ∧
    (s.lifecycle = .loading → s.nsym.toNat < s.params.nsymMax.toNat → clen.toNat ≤ s.params.lmax.toNat →
      ∃ t, exec (.pushLen clen) s = .next t ∧
        t = { s with len := t.len, nsym := t.nsym, rsp := t.rsp } ∧
        t.lenAt s.nsym.toNat = clen ∧ (∀ i, i ≠ s.nsym.toNat → t.lenAt i = s.lenAt i) ∧
        t.nsym.toNat = s.nsym.toNat + 1 ∧ t.rsp = some (BitVec.ofNat 32 (s.nsym.toNat + 1)))

/-- R64: READ_LEN: its encoding, INDEX_RANGE at and above NSYM, and otherwise the length stored, in every STATE; it writes
nothing. -/
def Obligations.ReadLenReadsOneLength : Prop :=
  (∀ w : Word, opField w = 0x5 →
    decode w = if w.extractLsb' 16 12 = 0 then .ok (.readLen (w.extractLsb' 0 16)) else .error (.reservedBits 0x5)) ∧
  ∀ (s : State) (idx : BitVec 16),
    (s.nsym.toNat ≤ idx.toNat → exec (.readLen idx) s = .next { s with rsp := some 0x50000000 }) ∧
    (s.nsym.toNat ≤ s.params.nsymMax.toNat → idx.toNat < s.nsym.toNat →
      exec (.readLen idx) s = .next { s with rsp := some (BitVec.ofNat 32 (s.lenAt idx.toNat).toNat) })

/-- R85, R86: LOOKUP: its encoding, BAD_STATE outside READY, INDEX_RANGE at and above `2^MAXBITS`, and otherwise the entry:
VALID in bit 21, ELEN in bits 20:16, ESYM in bits 15:0, or 0 for INVALID; it writes nothing. -/
def Obligations.LookupReadsOneEntry : Prop :=
  (∀ w : Word, opField w = 0x4 →
    decode w = if w.extractLsb' 16 12 = 0 then .ok (.lookup (w.extractLsb' 0 16)) else .error (.reservedBits 0x4)) ∧
  ∀ (s : State) (idx : BitVec 16),
    (s.lifecycle ≠ .ready → exec (.lookup idx) s = .next { s with rsp := some 0x20000000 }) ∧
    (s.lifecycle = .ready → 2 ^ s.maxBits.toNat ≤ idx.toNat →
      exec (.lookup idx) s = .next { s with rsp := some 0x50000000 }) ∧
    (s.lifecycle = .ready → s.maxBits.toNat ≤ s.params.lmax.toNat → idx.toNat < 2 ^ s.maxBits.toNat →
      (s.tableAt idx.toNat = .invalid → exec (.lookup idx) s = .next { s with rsp := some 0x00000000 }) ∧
      ∀ sym len, s.tableAt idx.toNat = .valid sym len →
        exec (.lookup idx) s =
          .next { s with rsp := some (BitVec.ofNat 32 (2 ^ 21 + len.toNat * 2 ^ 16 + sym.toNat)) })

/-- A LOOKUP index with a 1 in a bit from MAXBITS up is out of range and is not masked (R52). -/
def Obligations.LookupNeverMasksTheIndex : Prop :=
  ∀ (s : State) (idx : BitVec 16) (k : Nat), s.lifecycle = .ready → s.maxBits.toNat ≤ k → idx.getLsbD k = true →
    exec (.lookup idx) s = .next { s with rsp := some 0x50000000 }

/-- R91: READ_REG: its encoding, the value of each assigned register with its reserved bits 0, and ILLEGAL for 4 to 15, in
every STATE; it writes nothing; MAXBITS reads 0 outside READY (in states that meet the invariant). -/
def Obligations.ReadRegReadsOneRegister : Prop :=
  (∀ w : Word, opField w = 0x6 →
    decode w = if w.extractLsb' 4 24 = 0 then .ok (.readReg (w.extractLsb' 0 4)) else .error (.reservedBits 0x6)) ∧
  ∀ s : State,
    exec (.readReg 0) s = .next { s with rsp := some (BitVec.ofNat 32
      ((if s.complete then 4 else 0) +
        match s.lifecycle with
        | .loading => 0
        | .ready => 1
        | .failed => 2)) } ∧
    exec (.readReg 1) s = .next { s with rsp := some (BitVec.ofNat 32 s.nsym.toNat) } ∧
    exec (.readReg 2) s = .next { s with rsp := some (BitVec.ofNat 32 s.maxBits.toNat) } ∧
    exec (.readReg 3) s = .next { s with rsp := some (BitVec.ofNat 32
      (s.params.lmax.toNat * 2 ^ 16 + s.params.nsymMax.toNat)) } ∧
    (∀ reg : BitVec 4, 4 ≤ reg.toNat → exec (.readReg reg) s = .next { s with rsp := some 0x10000000 }) ∧
    (Inv s → s.lifecycle ≠ .ready → exec (.readReg 2) s = .next { s with rsp := some 0x00000000 })

/-! ### BUILD -/

/-- R66: BUILD in READY or FAILED answers BAD_STATE and changes nothing. -/
def Obligations.BuildOnlyInLoading : Prop :=
  ∀ s : State, s.lifecycle ≠ .loading → exec .build s = .next { s with rsp := some 0x20000000 }

/-- R79: over-subscribed lengths: STATE = FAILED, MAXBITS = 0, COMPLETE = 0, the response 0x60000000, and nothing else
written; in FAILED, LOOKUP and BUILD answer BAD_STATE and READ_LEN still shows the lengths. -/
def Obligations.OversubscribedBuildFails : Prop :=
  ∀ s : State, s.lifecycle = .loading → s.nsym.toNat ≤ s.params.nsymMax.toNat →
    2 ^ maxLength s.lengths < kraftSum s.lengths →
    ∃ t, exec .build s = .next t ∧
      t = { s with lifecycle := .failed, maxBits := 0, complete := false, rsp := some 0x60000000 } ∧
      exec .build t = .next { t with rsp := some 0x20000000 } ∧
      (∀ idx, exec (.lookup idx) t = .next { t with rsp := some 0x20000000 }) ∧
      ∀ idx, idx.toNat < s.nsym.toNat →
        exec (.readLen idx) t = .next { t with rsp := some (BitVec.ofNat 32 (s.lenAt idx.toNat).toNat) }

/-- R78: lengths that meet Kraft's inequality: BUILD completes with STATE = READY, MAXBITS = M, COMPLETE = 1 exactly when
KSUM = 2^M, M and COMPLETE in the response, TABLE written below `2^M` only, and everything else as it was. -/
def Obligations.BuildSucceeds : Prop :=
  ∀ s : State, s.lifecycle = .loading → s.nsym.toNat ≤ s.params.nsymMax.toNat →
    (∀ l ∈ s.lengths, l ≤ s.params.lmax.toNat) → kraftSum s.lengths ≤ 2 ^ maxLength s.lengths →
    ∃ t, exec .build s = .next t ∧
      t = { s with lifecycle := .ready, maxBits := t.maxBits, complete := t.complete, table := t.table, rsp := t.rsp } ∧
      t.maxBits.toNat = maxLength s.lengths ∧
      t.complete = decide (kraftSum s.lengths = 2 ^ maxLength s.lengths) ∧
      t.rsp = some (BitVec.ofNat 32
        (maxLength s.lengths + if kraftSum s.lengths = 2 ^ maxLength s.lengths then 32 else 0)) ∧
      ∀ j, 2 ^ maxLength s.lengths ≤ j → t.tableAt j = s.tableAt j

/-- R76: after a BUILD that succeeds, the slots `lo .. hi-1` of each code hold its entry, every slot in no code's range is
INVALID, apart from R77's second slot of a degenerate code; the ranges are contiguous from 0 and end at KSUM, so exactly
the slots below KSUM are valid. -/
def Obligations.BuildFillsTheCodesRanges : Prop :=
  ∀ s t : State, s.lifecycle = .loading → s.nsym.toNat ≤ s.params.nsymMax.toNat →
    (∀ l ∈ s.lengths, l ≤ s.params.lmax.toNat) → kraftSum s.lengths ≤ 2 ^ maxLength s.lengths →
    exec .build s = .next t →
    let m := maxLength s.lengths
    let cs := canonicalCodes s.lengths
    (∀ c ∈ cs, ∀ j, c.lo m ≤ j → j < c.hi m →
      t.tableAt j = .valid (BitVec.ofNat 16 c.sym) (BitVec.ofNat 5 c.len)) ∧
    (∀ j < 2 ^ m, (∀ c ∈ cs, ¬(c.lo m ≤ j ∧ j < c.hi m)) → ¬(degenerate s.lengths = true ∧ j = 1) →
      t.tableAt j = .invalid) ∧
    (cs.head?.map (fun c => c.lo m)).getD 0 = 0 ∧
    (cs.IsChain (fun a b => b.lo m = a.hi m)) ∧
    (cs.getLast?.map (fun c => c.hi m)).getD 0 = kraftSum s.lengths ∧
    (degenerate s.lengths = false → ∀ j < 2 ^ m, (t.tableAt j ≠ .invalid ↔ j < kraftSum s.lengths))

/-- After a BUILD that succeeds every slot holds what the code its index begins with says: `tableSpec`, which looks the
index's leading bits up among the codes, agrees with the fills (R30, R75, R76, R77). -/
def Obligations.BuiltTableIsPrefixLookup : Prop :=
  ∀ s t : State, s.lifecycle = .loading → s.nsym.toNat ≤ s.params.nsymMax.toNat →
    (∀ l ∈ s.lengths, l ≤ s.params.lmax.toNat) → kraftSum s.lengths ≤ 2 ^ maxLength s.lengths →
    exec .build s = .next t →
    ∀ j < 2 ^ maxLength s.lengths, t.tableAt j = tableSpec s.lengths j

/-- R77: with exactly one nonzero length, of symbol `i`: if it is 1, both slots hold `(i, 1)` and COMPLETE is 0; if it is
`L ≥ 2`, slot 0 holds `(i, L)` and every other slot is INVALID. -/
def Obligations.SingleSymbolCodes : Prop :=
  ∀ (s : State) (i l : Nat), s.lifecycle = .loading → s.nsym.toNat ≤ s.params.nsymMax.toNat →
    (∀ l ∈ s.lengths, l ≤ s.params.lmax.toNat) → i < s.nsym.toNat → 0 < l →
    (∀ k, k < s.nsym.toNat → (s.lenAt k).toNat = if k = i then l else 0) →
    ∃ t, exec .build s = .next t ∧ t.lifecycle = .ready ∧ t.maxBits.toNat = l ∧ t.complete = false ∧
      t.rsp = some (BitVec.ofNat 32 l) ∧
      (l = 1 → t.tableAt 0 = .valid (BitVec.ofNat 16 i) 1 ∧ t.tableAt 1 = .valid (BitVec.ofNat 16 i) 1) ∧
      (2 ≤ l → t.tableAt 0 = .valid (BitVec.ofNat 16 i) (BitVec.ofNat 5 l) ∧
        ∀ j, 0 < j → j < 2 ^ l → t.tableAt j = .invalid)

/-- R80: with NSYM = 0, or every stored length 0, BUILD answers 0x00000000 with `M = K = KSUM = 0`, STATE = READY,
MAXBITS = 0, COMPLETE = 0 and the one slot INVALID. -/
def Obligations.EmptyInputBuildsOneInvalidSlot : Prop :=
  ∀ s : State, s.lifecycle = .loading → s.nsym.toNat ≤ s.params.nsymMax.toNat →
    (∀ i < s.nsym.toNat, s.lenAt i = 0) →
    maxLength s.lengths = 0 ∧ ord s.lengths = [] ∧ ksum s.lengths = 0 ∧
    ∃ t, exec .build s = .next t ∧ t.lifecycle = .ready ∧ t.maxBits = 0 ∧ t.complete = false ∧
      t.rsp = some 0x00000000 ∧ t.tableAt 0 = .invalid

/-- R67: `M` is the largest length, 0 if there is none. -/
def Obligations.MaxLengthIsTheLargest : Prop :=
  ∀ ls : List Nat,
    (∀ l ∈ ls, l ≤ maxLength ls) ∧ (maxLength ls = 0 ∨ maxLength ls ∈ ls) ∧
    ((∀ l ∈ ls, l = 0) → maxLength ls = 0) ∧
    ∀ lmax, (∀ l ∈ ls, l ≤ lmax) → maxLength ls ≤ lmax

/-- R69: `OFFS[1] = 0`, `OFFS[l+1] = OFFS[l] + HIST[l]`; `OFFS[l]` is the position in ORD of the first symbol of length `l`
(the symbols before it are exactly those of smaller length), and `K = OFFS[P_LMAX+1]` counts the coded symbols. -/
def Obligations.PrefixSumsAreBucketStarts : Prop :=
  ∀ (ls : List Nat) (lmax : Nat), (∀ l ∈ ls, l ≤ lmax) →
    offs ls 1 = 0 ∧ (∀ l, 1 ≤ l → offs ls (l + 1) = offs ls l + ls.count l) ∧
    (∀ l, 1 ≤ l → ∀ k (h : k < (ord ls).length), ls.getD (ord ls)[k] 0 < l ↔ k < offs ls l) ∧
    offs ls (lmax + 1) = (ls.filter (fun l => 0 < l)).length ∧ offs ls (lmax + 1) = (ord ls).length

/-- R70: ORD lists every symbol with a nonzero length, by length ascending and within a length by symbol index
ascending. -/
def Obligations.OrdIsTheCanonicalOrder : Prop :=
  ∀ ls : List Nat,
    (∀ s, s ∈ ord ls ↔ s < ls.length ∧ 0 < ls.getD s 0) ∧
    (ord ls).Pairwise (fun a b => ls.getD a 0 < ls.getD b 0 ∨ (ls.getD a 0 = ls.getD b 0 ∧ a < b)) ∧
    orderedCodes ls = (ord ls).map (fun s => (s, ls.getD s 0))

/-- KSUM summed over the histogram is KSUM summed over the symbols (R71). -/
def Obligations.KraftSumOverSymbolsOrHistogram : Prop := ∀ ls : List Nat, ksum ls = kraftSum ls

/-- R72: the codes go with ORD in order; the first code is 0, and each next one is the one before plus 1, shifted left by
the growth in length, which is never negative. -/
def Obligations.CodeRecurrence : Prop :=
  ∀ ls : List Nat,
    (canonicalCodes ls).map (fun c => (c.sym, c.len)) = orderedCodes ls ∧
    (∀ c, (canonicalCodes ls).head? = some c → c.code = 0) ∧
    (canonicalCodes ls).IsChain (fun a b => a.len ≤ b.len ∧ b.code = (a.code + 1) * 2 ^ (b.len - a.len))

/-- R73: when the Kraft check passes: `code < 2^L`; exactly one code per symbol with length > 0; of two symbols of equal
length the smaller index has the smaller code; no code is a prefix of another. -/
def Obligations.CodesAreCanonicalAndFreeOfPrefixes : Prop :=
  ∀ ls : List Nat, kraftSum ls ≤ 2 ^ maxLength ls →
    (∀ c ∈ canonicalCodes ls, c.code < 2 ^ c.len) ∧
    (∀ s, s < ls.length → 0 < ls.getD s 0 →
      ∃ c ∈ canonicalCodes ls, c.sym = s ∧ c.len = ls.getD s 0 ∧ ∀ c' ∈ canonicalCodes ls, c'.sym = s → c' = c) ∧
    (∀ a ∈ canonicalCodes ls, ∀ b ∈ canonicalCodes ls, a.len = b.len → a.sym < b.sym → a.code < b.code) ∧
    ∀ a ∈ canonicalCodes ls, ∀ b ∈ canonicalCodes ls, a ≠ b → a.len ≤ b.len → b.code >>> (b.len - a.len) ≠ a.code

/-- The fill ranges of different symbols are disjoint, and each has `2^(M-L)` slots, below `2^M` (R75, R81). -/
def Obligations.FillRangesAreDisjoint : Prop :=
  ∀ ls : List Nat, kraftSum ls ≤ 2 ^ maxLength ls →
    (∀ c ∈ canonicalCodes ls,
      c.hi (maxLength ls) = c.lo (maxLength ls) + 2 ^ (maxLength ls - c.len) ∧ c.hi (maxLength ls) ≤ 2 ^ maxLength ls) ∧
    ∀ a ∈ canonicalCodes ls, ∀ b ∈ canonicalCodes ls, a.sym ≠ b.sym →
      a.hi (maxLength ls) ≤ b.lo (maxLength ls) ∨ b.hi (maxLength ls) ≤ a.lo (maxLength ls)

/-- Decoding what encoding gives: in a READY state, the index made of a symbol's code, right-padded with any bits `t` up to
MAXBITS, looks up that symbol with its own length (R81, second bullet). -/
def Obligations.LookupDecodesEveryCode : Prop :=
  ∀ (s : State) (c : Code) (t : Nat), Inv s → s.lifecycle = .ready → c ∈ canonicalCodes s.lengths →
    t < 2 ^ (s.maxBits.toNat - c.len) →
    c.code * 2 ^ (s.maxBits.toNat - c.len) + t < 2 ^ 16 ∧
    exec (.lookup (BitVec.ofNat 16 (c.code * 2 ^ (s.maxBits.toNat - c.len) + t))) s =
      .next { s with rsp := some (BitVec.ofNat 32 (2 ^ 21 + c.len * 2 ^ 16 + c.sym)) }

/-- In a READY state, COMPLETE = 1 says that every slot is valid; for an incomplete code the slots from KSUM up are
INVALID, except the second slot of a degenerate code (R17, R81, third bullet). -/
def Obligations.CompleteMeansEverySlotValid : Prop :=
  ∀ s : State, Inv s → s.lifecycle = .ready →
    (s.complete = true → ∀ j < 2 ^ s.maxBits.toNat, s.tableAt j ≠ .invalid) ∧
    (s.complete = false → ∀ j < 2 ^ s.maxBits.toNat, kraftSum s.lengths ≤ j →
      ¬(degenerate s.lengths = true ∧ j = 1) → s.tableAt j = .invalid)

/-- R23: VALID, ELEN and ESYM are bits 21, 20:16 and 15:0 of an entry, INVALID is 22 zero bits, and in a READY state every
valid entry of the table has `1 ≤ len ≤ MAXBITS` and `sym < NSYM`; no other pattern has VALID = 0. -/
def Obligations.TableEntryFields : Prop :=
  (∀ (sym : BitVec 16) (len : BitVec 5),
    (Entry.valid sym len).bits.extractLsb' 21 1 = 1 ∧ (Entry.valid sym len).bits.extractLsb' 16 5 = len ∧
    (Entry.valid sym len).bits.extractLsb' 0 16 = sym) ∧
  Entry.invalid.bits = 0 ∧ (∀ e : Entry, e.bits.extractLsb' 21 1 = 0 → e.bits = 0) ∧
  ∀ s : State, Inv s → s.lifecycle = .ready → ∀ j < 2 ^ s.maxBits.toNat, ∀ sym len,
    s.tableAt j = .valid sym len → 1 ≤ len.toNat ∧ len.toNat ≤ s.maxBits.toNat ∧ sym.toNat < s.nsym.toNat

/-- The counting sort of histogram, prefix sums and scatter gives the same ORD (R70, R82). -/
def Obligations.CountingSortGivesTheSameOrder : Prop :=
  ∀ (lmax : Nat) (ls : List Nat), (∀ l ∈ ls, l ≤ lmax) → countingSortOrd lmax ls = ord ls

/-- The per-level recurrence `left` detects exactly the over-subscribed lengths: some level falls below 0 exactly when
KSUM > 2^M; `left_M = 2^M - KSUM`, and a negative level stays negative (R82). -/
def Obligations.LeftRecurrenceDetectsOversubscription : Prop :=
  ∀ ls : List Nat,
    ((∃ l, l ≤ maxLength ls ∧ codesLeft ls l < 0) ↔ 2 ^ maxLength ls < kraftSum ls) ∧
    codesLeft ls (maxLength ls) = (2 ^ maxLength ls : Int) - (kraftSum ls : Int) ∧
    ∀ l, codesLeft ls l < 0 → codesLeft ls (l + 1) < 0

/-- R83: for every legal input the values fit the widths of the block's working registers: KSUM in 32 bits, and, once KC
passes, codes below 2^16, NEXT and the range ends at most 2^16, shift amounts at most 16, counts at most NSYM. -/
def Obligations.WorkingValuesFitTheirWidths : Prop :=
  ∀ ls : List Nat, (∀ l ∈ ls, l ≤ 16) → ls.length ≤ 65535 →
    maxLength ls ≤ 16 ∧ kraftSum ls ≤ 65535 * 2 ^ 15 ∧ 65535 * 2 ^ 15 < 2 ^ 31 ∧
    (∀ l, hist ls l ≤ ls.length) ∧ (∀ l, offs ls l ≤ ls.length) ∧ (ord ls).length ≤ ls.length ∧
    (kraftSum ls ≤ 2 ^ maxLength ls → ∀ c ∈ canonicalCodes ls,
      c.code < 2 ^ 16 ∧ c.code + 1 ≤ 2 ^ 16 ∧ c.lo (maxLength ls) ≤ 2 ^ 16 ∧ c.hi (maxLength ls) ≤ 2 ^ 16 ∧
      1 ≤ c.len ∧ c.len ≤ 16 ∧ maxLength ls - c.len ≤ 16)

/-! ### Errors -/

/-- R94: a command answered with ILLEGAL, BAD_STATE, CAPACITY, LENGTH_RANGE or INDEX_RANGE changes no architected state,
and the next command runs as if the refused one had not been sent. -/
def Obligations.RefusedCommandsArePrecise : Prop :=
  ∀ (i : Instr) (s t : State) (w : Word), exec i s = .next t → t.rsp = some w →
    1 ≤ (w.extractLsb' 28 4).toNat → (w.extractLsb' 28 4).toNat ≤ 5 →
    t = { s with rsp := t.rsp } ∧ ∀ k : Instr, exec k t = exec k s

/-- R95: OVERSUBSCRIBED comes only from BUILD, only for lengths that violate Kraft's inequality, with response data 0 and
with STATE, MAXBITS and COMPLETE written; it is the only result code but OK that comes with a state change; and a BUILD of
the same lengths always gives the same result. -/
def Obligations.OversubscribedIsTheOnlyErrorWithEffect : Prop :=
  (∀ (i : Instr) (s t : State) (w : Word), exec i s = .next t → t.rsp = some w →
    (w.extractLsb' 28 4 = 6 → i = .build ∧ 2 ^ maxLength s.lengths < kraftSum s.lengths ∧ w.extractLsb' 0 28 = 0 ∧
      t = { s with lifecycle := .failed, maxBits := 0, complete := false, rsp := t.rsp }) ∧
    (w.extractLsb' 28 4 ≠ 0 → t ≠ { s with rsp := t.rsp } → w.extractLsb' 28 4 = 6)) ∧
  ∀ a b t u : State, a.lifecycle = .loading → b.lifecycle = .loading → a.lengths = b.lengths →
    exec .build a = .next t → exec .build b = .next u → t.rsp = u.rsp

/-- R96: each command answers only the result codes its row allows, each for its cause, and DATA is 0 unless the code is OK;
a word that spells no command is answered ILLEGAL. -/
def Obligations.ResultCodesOfEachCommand : Prop :=
  (∀ (i : Instr) (s t : State), exec i s = .next t →
    ∃ rc data, t.rsp = some (responseWord rc data) ∧ mayAnswer i s rc ∧ (rc ≠ .ok → data = 0)) ∧
  ∀ (w : Word) (s : State), commandWordWf w = false → runCommandWord w s = .next { s with rsp := some 0x10000000 }

/-- READ_LEN, LOOKUP and READ_REG write nothing but the response port, and the same command repeated gives the same
response (R32, R88). -/
def Obligations.ReadsHaveNoSideEffects : Prop :=
  ∀ (i : Instr) (s t : State),
    ((∃ idx, i = .lookup idx) ∨ (∃ idx, i = .readLen idx) ∨ ∃ reg, i = .readReg reg) →
    exec i s = .next t → t = { s with rsp := t.rsp } ∧ exec i t = .next t

/-- R63: a length once pushed stays until CLEAR: no other command changes `LEN[i]` for `i < NSYM`, nor makes NSYM smaller;
and once STATE has left LOADING, no command but CLEAR changes STATE, LEN, NSYM, TABLE, MAXBITS or COMPLETE (R16). -/
def Obligations.OnlyClearDiscardsWhatIsHeld : Prop :=
  ∀ (i : Instr) (s t : State), i ≠ .clear → exec i s = .next t →
    s.nsym.toNat ≤ t.nsym.toNat ∧ (∀ k < s.nsym.toNat, t.lenAt k = s.lenAt k) ∧
    (s.lifecycle ≠ .loading → t = { s with rsp := t.rsp })

/-- STATE changes only as R16 says: BUILD leads from LOADING to READY or FAILED, CLEAR and reset lead back to LOADING. -/
def Obligations.LifecycleTransitions : Prop :=
  (∀ (i : Instr) (s t : State), exec i s = .next t → t.lifecycle ≠ s.lifecycle →
    (i = .clear ∧ t.lifecycle = .loading) ∨
    (i = .build ∧ s.lifecycle = .loading ∧ (t.lifecycle = .ready ∨ t.lifecycle = .failed))) ∧
  ∀ (s t : State), step s = .next t → t.lifecycle ≠ s.lifecycle →
    t.lifecycle = .loading ∨ (s.lifecycle = .loading ∧ (t.lifecycle = .ready ∨ t.lifecycle = .failed))

/-! ### The whole block -/

/-- Every legal configuration is reset into a state that meets the invariant, whatever the host then drives. -/
def Obligations.ResetMeetsTheInvariant : Prop :=
  ∀ (c : Config) (es : List HostEdge), c.wf = true → Inv { State.resetWith c with edges := es }

/-- Every step keeps the invariant. -/
def Obligations.StepKeepsTheInvariant : Prop := ∀ s t : State, Inv s → step s = .next t → Inv t

/-- From a state that meets the invariant no step stops: no access leaves its index space, and every word the host sends is
answered. -/
def Obligations.StepNeverStops : Prop := ∀ s : State, Inv s → ∃ t, step s = .next t

/-- R27: what holds in every state the block reaches from reset, in every legal configuration and whatever the host
drives. -/
def Obligations.ReachableStates : Prop :=
  ∀ (c : Config) (es : List HostEdge) (n : Nat), c.wf = true →
    ∃ s, core.run n { State.resetWith c with edges := es } = .next s ∧
      s.nsym.toNat ≤ c.nsymMax.toNat ∧
      (∀ i < s.nsym.toNat, (s.lenAt i).toNat ≤ c.lmax.toNat) ∧
      (s.lifecycle ≠ .ready → s.maxBits = 0 ∧ s.complete = false) ∧
      (s.lifecycle = .ready → s.maxBits.toNat = maxLength s.lengths ∧ kraftSum s.lengths ≤ 2 ^ s.maxBits.toNat ∧
        ∀ j < 2 ^ s.maxBits.toNat, s.tableAt j = tableSpec s.lengths j)

/-- What LEN holds at NSYM and above, and what TABLE holds outside READY and at `2^MAXBITS` and above, no step lets the host
see: states that differ only there step to states that differ only there (R21, R22). -/
def Obligations.UnreadableEntriesAreUnobservable : Prop :=
  ∀ a b : State, SameToHost a b → sameOutcome (step a) (step b)

/-- R90: no sequence of commands can tell a block just cleared from a block just reset. -/
def Obligations.ClearedBlockIsLikeAResetBlock : Prop :=
  ∀ (s : State) (es : List HostEdge), ∃ t, exec .clear s = .next t ∧ ∀ n : Nat,
    sameOutcome (core.run n { t with rsp := none, edges := es })
      (core.run n { State.resetWith s.params with edges := es, sent := s.sent })

/-- R61: pushes from an empty LOADING state load the length array: after `n` of them NSYM = n and LEN holds it in order. -/
def Obligations.PushesLoadTheLengthArray : Prop :=
  ∀ (s : State) (ls : List (BitVec 5)), s.lifecycle = .loading → s.nsym = 0 →
    ls.length ≤ s.params.nsymMax.toNat → (∀ l ∈ ls, l.toNat ≤ s.params.lmax.toNat) →
    ∃ t, execAll (ls.map .pushLen) s = .next t ∧ t.nsym.toNat = ls.length ∧ t.lengths = ls.map (fun l => l.toNat) ∧
      t = { s with len := t.len, nsym := t.nsym, rsp := t.rsp }

/-- R113: CLEAR, the pushes and BUILD are one call of the source's `build(lengths)`, from any state of a legal
configuration: over-subscribed lengths leave no table, all others leave READY with the table the lengths define. -/
def Obligations.BuildTableRealisesOneBuild : Prop :=
  ∀ (s : State) (bs : List (BitVec 5)), s.params.wf = true →
    bs.length ≤ s.params.nsymMax.toNat → (∀ l ∈ bs, l.toNat ≤ s.params.lmax.toNat) →
    let ls := bs.map (fun l => l.toNat)
    ∃ t, execAll (buildTable bs) s = .next t ∧ t.lengths = ls ∧
      (2 ^ maxLength ls < kraftSum ls →
        t.lifecycle = .failed ∧ t.rsp = some 0x60000000 ∧ ∀ idx, exec (.lookup idx) t = .next { t with rsp := some 0x20000000 }) ∧
      (kraftSum ls ≤ 2 ^ maxLength ls →
        t.lifecycle = .ready ∧ t.maxBits.toNat = maxLength ls ∧ ∀ j < 2 ^ maxLength ls, t.tableAt j = tableSpec ls j)

/-- The ports realise command sequences: a host that offers each command's word and then takes its response gets one
response a command, and leaves the state that the commands leave one after the other (R36, R38, R45). The list of edges and
the words taken are the model's own fields (log 3, log 4). -/
def Obligations.PortsRealiseCommandSequences : Prop :=
  ∀ (s : State) (cs : List Instr), Inv s →
    ∃ t u, execAll cs s = .next t ∧
      core.run (2 * cs.length)
        { s with rsp := none, edges := cs.flatMap fun i => [⟨false, some (encode i), false⟩, ⟨false, none, true⟩] } = .next u ∧
      u = { t with rsp := none, edges := [], sent := u.sent } ∧ s.sent <+: u.sent ∧
      u.sent.length = s.sent.length + cs.length
end

