-- ==== Sys2Proof/Laws/Memory.lean ====
section
/-! SUPPORT. The laws of the two memories: what a read gives after a fill or a write, that both keep the canonical form, and
that two memories in canonical form with the same reads are the same data. -/

namespace Sys2Proof.Machine

variable {α : Type}

@[simp] theorem Memory.read_nil (d : α) (i : Nat) : Memory.read d [] i = d := rfl

theorem Memory.read_cons (d : α) (c : Nat × α) (m : Memory α) (i : Nat) :
    Memory.read d (c :: m) i = if c.1 = i then c.2 else Memory.read d m i := rfl

/-- An index that is not listed reads as the default. -/
theorem Memory.read_of_not_listed {d : α} {m : Memory α} {i : Nat} (h : ∀ c ∈ m, c.1 ≠ i) : Memory.read d m i = d := by
  induction m with
  | nil => rfl
  | cons c m ih =>
    rw [Memory.read_cons, if_neg (h c (by simp)), ih fun c' hc' => h c' (by simp [hc'])]

/-- A read through an appended list: the first list decides where it lists the index. -/
theorem Memory.read_append (d : α) (m n : Memory α) (i : Nat) :
    Memory.read d (m ++ n) i = if ∃ c ∈ m, c.1 = i then Memory.read d m i else Memory.read d n i := by
  induction m with
  | nil => simp
  | cons c m ih =>
    by_cases hc : c.1 = i
    · simp [Memory.read_cons, hc]
    · have hex : (∃ c' ∈ c :: m, c'.1 = i) ↔ ∃ c' ∈ m, c'.1 = i := by simp [hc]
      rw [List.cons_append, Memory.read_cons, Memory.read_cons, if_neg hc, if_neg hc, ih]
      simp only [hex]

/-- Keeping the pairs whose index passes a test keeps what the indices that pass it read as. -/
theorem Memory.read_filter (d : α) (p : Nat → Bool) (m : Memory α) (i : Nat) :
    Memory.read d (m.filter fun c => p c.1) i = if p i then Memory.read d m i else d := by
  induction m with
  | nil => simp
  | cons c m ih =>
    by_cases hc : c.1 = i
    · by_cases hp : p i
      · simp [Memory.read_cons, hc, hp]
      · simp [hc, hp, ih]
    · by_cases hp : p c.1 <;> simp [Memory.read_cons, hc, hp, ih]

/-- The pairs of a filled range read as the value inside the range and list nothing outside. -/
theorem Memory.read_range (d : α) (lo n : Nat) (v : α) (i : Nat) :
    Memory.read d ((List.range n).map fun k => (lo + k, v)) i = if lo ≤ i ∧ i < lo + n then v else d := by
  induction n with
  | zero =>
    have : ¬(lo ≤ i ∧ i < lo + 0) := by omega
    simp only [List.range_zero, List.map_nil, Memory.read_nil, this, if_false]
  | succ n ih =>
    rw [List.range_succ, List.map_append, Memory.read_append]
    have hlisted : (∃ c ∈ (List.range n).map (fun k => (lo + k, v)), c.1 = i) ↔ lo ≤ i ∧ i < lo + n := by
      simp only [List.mem_map, List.mem_range]
      constructor
      · rintro ⟨_, ⟨k, hk, rfl⟩, rfl⟩
        exact ⟨by simp, by simpa using hk⟩
      · rintro ⟨h1, h2⟩
        exact ⟨(i, v), ⟨i - lo, by omega, by simp; omega⟩, rfl⟩
    by_cases hin : lo ≤ i ∧ i < lo + n
    · rw [if_pos (hlisted.2 hin), ih, if_pos hin, if_pos (by omega)]
    · rw [if_neg (mt hlisted.1 hin)]
      simp only [List.map_cons, List.map_nil, Memory.read_cons, Memory.read_nil]
      by_cases hi : lo + n = i
      · rw [if_pos hi, if_pos (by omega)]
      · rw [if_neg hi, if_neg (by omega)]

variable [DecidableEq α]

/-- A fill is read back inside its range and nowhere else. -/
theorem Memory.read_fill (d : α) (m : Memory α) (lo hi : Nat) (v : α) (i : Nat) :
    Memory.read d (Memory.fill d m lo hi v) i = if lo ≤ i ∧ i < hi then v else Memory.read d m i := by
  have hmid : Memory.read d (if v = d then [] else (List.range (hi - lo)).map fun k => (lo + k, v)) i =
      if lo ≤ i ∧ i < hi then v else d := by
    by_cases hv : v = d
    · simp [hv]
    · rw [if_neg hv, Memory.read_range]
      by_cases hin : lo ≤ i ∧ i < hi
      · rw [if_pos hin, if_pos (by omega)]
      · rw [if_neg hin, if_neg (by omega)]
  have hmidlisted : ∀ c ∈ (if v = d then [] else (List.range (hi - lo)).map fun k => (lo + k, v)),
      lo ≤ c.1 ∧ c.1 < hi := by
    intro c hc
    by_cases hv : v = d
    · simp [hv] at hc
    · rw [if_neg hv] at hc
      obtain ⟨k, hk, rfl⟩ := List.mem_map.1 hc
      rw [List.mem_range] at hk
      constructor <;> simp only <;> omega
  unfold Memory.fill
  rw [Memory.read_append, Memory.read_append, Memory.read_filter d (fun k => decide (k < lo)),
    Memory.read_filter d (fun k => decide (hi ≤ k)), hmid]
  by_cases hin : lo ≤ i ∧ i < hi
  · have h1 : ¬∃ c ∈ m.filter (fun c => decide (c.1 < lo)), c.1 = i := by
      rintro ⟨c, hc, rfl⟩
      simp at hc
      omega
    have h3 : ¬hi ≤ i := by omega
    rw [if_neg h1]
    simp only [if_pos hin]
    by_cases hl : ∃ c ∈ (if v = d then [] else (List.range (hi - lo)).map fun k => (lo + k, v)), c.1 = i
    · rw [if_pos hl]
    · rw [if_neg hl]
      have := Memory.read_of_not_listed (d := d) (i := i) fun c hc h => hl ⟨c, hc, h⟩
      rw [hmid, if_pos hin] at this
      simp [h3, this]
  · simp only [if_neg hin]
    have h2 : ¬∃ c ∈ (if v = d then [] else (List.range (hi - lo)).map fun k => (lo + k, v)), c.1 = i := by
      rintro ⟨c, hc, rfl⟩
      exact hin (hmidlisted c hc)
    rw [if_neg h2]
    by_cases hl : ∃ c ∈ m.filter (fun c => decide (c.1 < lo)), c.1 = i
    · rw [if_pos hl]
      obtain ⟨c, hc, rfl⟩ := hl
      simp at hc
      simp [hc.2]
    · rw [if_neg hl]
      by_cases hhi : hi ≤ i
      · simp [hhi]
      · have hlo : i < lo := by omega
        have : Memory.read d m i = d := by
          apply Memory.read_of_not_listed
          intro c hc h
          exact hl ⟨c, by simp [hc, h, hlo], h⟩
        simp [hhi, this]

/-- A write is read back at its index and nowhere else. -/
theorem Memory.read_write (d : α) (m : Memory α) (i : Nat) (v : α) (k : Nat) :
    Memory.read d (Memory.write d m i v) k = if k = i then v else Memory.read d m k := by
  rw [Memory.write, Memory.read_fill]
  by_cases h : k = i
  · rw [if_pos h, if_pos (by omega)]
  · rw [if_neg h, if_neg (by omega)]

/-! ### The canonical form -/

theorem Memory.wf_iff (d : α) (size : Nat) (m : Memory α) :
    Memory.wf d size m = true ↔ m.Pairwise (fun a b => a.1 < b.1) ∧ ∀ c ∈ m, c.1 < size ∧ c.2 ≠ d := by
  simp only [Memory.wf, Bool.and_eq_true, decide_eq_true_eq, List.all_eq_true]

@[simp] theorem Memory.wf_nil (d : α) (size : Nat) : Memory.wf d size ([] : Memory α) = true := rfl

/-- A fill within the memory's size keeps the canonical form. -/
theorem Memory.wf_fill {d : α} {size : Nat} {m : Memory α} {lo hi : Nat} (v : α) (h : Memory.wf d size m = true)
    (hle : lo ≤ hi) (hsize : hi ≤ size) : Memory.wf d size (Memory.fill d m lo hi v) = true := by
  rw [Memory.wf_iff] at h ⊢
  have hmid : ∀ c ∈ (if v = d then [] else (List.range (hi - lo)).map fun k => (lo + k, v)),
      lo ≤ c.1 ∧ c.1 < hi ∧ c.2 = v ∧ v ≠ d := by
    intro c hc
    by_cases hv : v = d
    · simp [hv] at hc
    · rw [if_neg hv] at hc
      obtain ⟨k, hk, rfl⟩ := List.mem_map.1 hc
      rw [List.mem_range] at hk
      exact ⟨by simp, by simp only; omega, rfl, hv⟩
  have hmidsorted : List.Pairwise (fun a b : Nat × α => a.1 < b.1)
      (if v = d then [] else (List.range (hi - lo)).map fun k => (lo + k, v)) := by
    by_cases hv : v = d
    · simp [hv]
    · rw [if_neg hv, List.pairwise_map]
      exact List.pairwise_lt_range.imp fun hab => by simp only; omega
  constructor
  · rw [Memory.fill, List.pairwise_append, List.pairwise_append]
    refine ⟨h.1.filter _, ⟨hmidsorted, h.1.filter _, ?_⟩, ?_⟩
    · intro a ha b hb
      have := hmid a ha
      simp at hb
      omega
    · intro a ha b hb
      simp at ha
      rcases List.mem_append.1 hb with hb | hb
      · have := hmid b hb
        omega
      · simp at hb
        omega
  · intro c hc
    rw [Memory.fill, List.mem_append, List.mem_append] at hc
    rcases hc with hc | hc | hc
    · exact h.2 c (List.mem_of_mem_filter hc)
    · obtain ⟨_, h2, h3, h4⟩ := hmid c hc
      exact ⟨by omega, by rw [h3]; exact h4⟩
    · exact h.2 c (List.mem_of_mem_filter hc)

/-- A write to an entry that exists keeps the canonical form. -/
theorem Memory.wf_write {d : α} {size : Nat} {m : Memory α} {i : Nat} (v : α) (h : Memory.wf d size m = true)
    (hi : i < size) : Memory.wf d size (Memory.write d m i v) = true :=
  Memory.wf_fill v h (by omega) (by omega)

/-- Two memories in canonical form with the same reads are the same data. -/
theorem Memory.eq_of_same_reads {d : α} {size : Nat} :
    ∀ {m n : Memory α}, Memory.wf d size m = true → Memory.wf d size n = true →
      (∀ i, Memory.read d m i = Memory.read d n i) → m = n := by
  have listed : ∀ {m : Memory α}, Memory.wf d size m = true → ∀ c ∈ m, Memory.read d m c.1 = c.2 ∧ c.2 ≠ d := by
    intro m hm c hc
    rw [Memory.wf_iff] at hm
    refine ⟨?_, (hm.2 c hc).2⟩
    obtain ⟨hs, -⟩ := hm
    induction m with
    | nil => simp at hc
    | cons b m ih =>
      rw [List.pairwise_cons] at hs
      rcases List.mem_cons.1 hc with rfl | hc
      · simp [Memory.read_cons]
      · have := hs.1 c hc
        rw [Memory.read_cons, if_neg (by omega), ih hc hs.2]
  have below : ∀ {b : Nat × α} {m : Memory α}, Memory.wf d size (b :: m) = true → ∀ i, i ≤ b.1 → Memory.read d m i = d := by
    intro b m hm i hi
    rw [Memory.wf_iff, List.pairwise_cons] at hm
    apply Memory.read_of_not_listed
    intro c hc h
    have := hm.1.1 c hc
    omega
  have tail : ∀ {b : Nat × α} {m : Memory α}, Memory.wf d size (b :: m) = true → Memory.wf d size m = true := by
    intro b m hm
    rw [Memory.wf_iff, List.pairwise_cons] at hm
    rw [Memory.wf_iff]
    exact ⟨hm.1.2, fun c hc => hm.2 c (List.mem_cons_of_mem _ hc)⟩
  intro m
  induction m with
  | nil =>
    intro n _ hn h
    cases n with
    | nil => rfl
    | cons c n =>
      have := listed hn c (by simp)
      rw [← h] at this
      exact absurd this.1.symm this.2
  | cons b m ih =>
    intro n hm hn h
    cases n with
    | nil =>
      have := listed hm b (by simp)
      rw [h] at this
      exact absurd this.1.symm this.2
    | cons c n =>
      have hb := listed hm b (by simp)
      have hc := listed hn c (by simp)
      have hkey : b.1 = c.1 := by
        by_contra hne
        rcases Nat.lt_or_gt_of_ne hne with hlt | hgt
        · have h1 := h b.1
          rw [hb.1, Memory.read_cons, if_neg (by omega), below hn b.1 (by omega)] at h1
          exact hb.2 h1
        · have h1 := h c.1
          rw [hc.1, Memory.read_cons, if_neg (by omega), below hm c.1 (by omega)] at h1
          exact hc.2 h1.symm
      have hval : b.2 = c.2 := by
        rw [← hb.1, ← hc.1, h, hkey]
      have hbc : b = c := Prod.ext hkey hval
      subst hbc
      congr 1
      apply ih (tail hm) (tail hn)
      intro i
      by_cases hi : i ≤ b.1
      · rw [below hm i hi, below hn i hi]
      · have := h i
        rwa [Memory.read_cons, Memory.read_cons, if_neg (by omega), if_neg (by omega)] at this

end Sys2Proof.Machine
end

