-- ==== Sys2Proof/Laws/State.lean ====
section
/-! SUPPORT. One lemma per field per update of State, and what the accessors of LEN and TABLE read after an update, so that
no later proof unfolds a record update. -/

namespace Sys2Proof.Machine

@[simp] theorem State.setLifecycle_params (s : State) (l : Lifecycle) : (s.setLifecycle l).params = s.params := rfl
@[simp] theorem State.setLifecycle_lifecycle (s : State) (l : Lifecycle) : (s.setLifecycle l).lifecycle = l := rfl
@[simp] theorem State.setLifecycle_complete (s : State) (l : Lifecycle) : (s.setLifecycle l).complete = s.complete := rfl
@[simp] theorem State.setLifecycle_nsym (s : State) (l : Lifecycle) : (s.setLifecycle l).nsym = s.nsym := rfl
@[simp] theorem State.setLifecycle_maxBits (s : State) (l : Lifecycle) : (s.setLifecycle l).maxBits = s.maxBits := rfl
@[simp] theorem State.setLifecycle_len (s : State) (l : Lifecycle) : (s.setLifecycle l).len = s.len := rfl
@[simp] theorem State.setLifecycle_table (s : State) (l : Lifecycle) : (s.setLifecycle l).table = s.table := rfl
@[simp] theorem State.setLifecycle_rsp (s : State) (l : Lifecycle) : (s.setLifecycle l).rsp = s.rsp := rfl
@[simp] theorem State.setLifecycle_edges (s : State) (l : Lifecycle) : (s.setLifecycle l).edges = s.edges := rfl
@[simp] theorem State.setLifecycle_sent (s : State) (l : Lifecycle) : (s.setLifecycle l).sent = s.sent := rfl

@[simp] theorem State.setComplete_params (s : State) (b : Bool) : (s.setComplete b).params = s.params := rfl
@[simp] theorem State.setComplete_lifecycle (s : State) (b : Bool) : (s.setComplete b).lifecycle = s.lifecycle := rfl
@[simp] theorem State.setComplete_complete (s : State) (b : Bool) : (s.setComplete b).complete = b := rfl
@[simp] theorem State.setComplete_nsym (s : State) (b : Bool) : (s.setComplete b).nsym = s.nsym := rfl
@[simp] theorem State.setComplete_maxBits (s : State) (b : Bool) : (s.setComplete b).maxBits = s.maxBits := rfl
@[simp] theorem State.setComplete_len (s : State) (b : Bool) : (s.setComplete b).len = s.len := rfl
@[simp] theorem State.setComplete_table (s : State) (b : Bool) : (s.setComplete b).table = s.table := rfl
@[simp] theorem State.setComplete_rsp (s : State) (b : Bool) : (s.setComplete b).rsp = s.rsp := rfl
@[simp] theorem State.setComplete_edges (s : State) (b : Bool) : (s.setComplete b).edges = s.edges := rfl
@[simp] theorem State.setComplete_sent (s : State) (b : Bool) : (s.setComplete b).sent = s.sent := rfl

@[simp] theorem State.setNsym_params (s : State) (n : BitVec 16) : (s.setNsym n).params = s.params := rfl
@[simp] theorem State.setNsym_lifecycle (s : State) (n : BitVec 16) : (s.setNsym n).lifecycle = s.lifecycle := rfl
@[simp] theorem State.setNsym_complete (s : State) (n : BitVec 16) : (s.setNsym n).complete = s.complete := rfl
@[simp] theorem State.setNsym_nsym (s : State) (n : BitVec 16) : (s.setNsym n).nsym = n := rfl
@[simp] theorem State.setNsym_maxBits (s : State) (n : BitVec 16) : (s.setNsym n).maxBits = s.maxBits := rfl
@[simp] theorem State.setNsym_len (s : State) (n : BitVec 16) : (s.setNsym n).len = s.len := rfl
@[simp] theorem State.setNsym_table (s : State) (n : BitVec 16) : (s.setNsym n).table = s.table := rfl
@[simp] theorem State.setNsym_rsp (s : State) (n : BitVec 16) : (s.setNsym n).rsp = s.rsp := rfl
@[simp] theorem State.setNsym_edges (s : State) (n : BitVec 16) : (s.setNsym n).edges = s.edges := rfl
@[simp] theorem State.setNsym_sent (s : State) (n : BitVec 16) : (s.setNsym n).sent = s.sent := rfl

@[simp] theorem State.setMaxBits_params (s : State) (m : BitVec 5) : (s.setMaxBits m).params = s.params := rfl
@[simp] theorem State.setMaxBits_lifecycle (s : State) (m : BitVec 5) : (s.setMaxBits m).lifecycle = s.lifecycle := rfl
@[simp] theorem State.setMaxBits_complete (s : State) (m : BitVec 5) : (s.setMaxBits m).complete = s.complete := rfl
@[simp] theorem State.setMaxBits_nsym (s : State) (m : BitVec 5) : (s.setMaxBits m).nsym = s.nsym := rfl
@[simp] theorem State.setMaxBits_maxBits (s : State) (m : BitVec 5) : (s.setMaxBits m).maxBits = m := rfl
@[simp] theorem State.setMaxBits_len (s : State) (m : BitVec 5) : (s.setMaxBits m).len = s.len := rfl
@[simp] theorem State.setMaxBits_table (s : State) (m : BitVec 5) : (s.setMaxBits m).table = s.table := rfl
@[simp] theorem State.setMaxBits_rsp (s : State) (m : BitVec 5) : (s.setMaxBits m).rsp = s.rsp := rfl
@[simp] theorem State.setMaxBits_edges (s : State) (m : BitVec 5) : (s.setMaxBits m).edges = s.edges := rfl
@[simp] theorem State.setMaxBits_sent (s : State) (m : BitVec 5) : (s.setMaxBits m).sent = s.sent := rfl

@[simp] theorem State.setLen_params (s : State) (m : Memory (BitVec 5)) : (s.setLen m).params = s.params := rfl
@[simp] theorem State.setLen_lifecycle (s : State) (m : Memory (BitVec 5)) : (s.setLen m).lifecycle = s.lifecycle := rfl
@[simp] theorem State.setLen_complete (s : State) (m : Memory (BitVec 5)) : (s.setLen m).complete = s.complete := rfl
@[simp] theorem State.setLen_nsym (s : State) (m : Memory (BitVec 5)) : (s.setLen m).nsym = s.nsym := rfl
@[simp] theorem State.setLen_maxBits (s : State) (m : Memory (BitVec 5)) : (s.setLen m).maxBits = s.maxBits := rfl
@[simp] theorem State.setLen_len (s : State) (m : Memory (BitVec 5)) : (s.setLen m).len = m := rfl
@[simp] theorem State.setLen_table (s : State) (m : Memory (BitVec 5)) : (s.setLen m).table = s.table := rfl
@[simp] theorem State.setLen_rsp (s : State) (m : Memory (BitVec 5)) : (s.setLen m).rsp = s.rsp := rfl
@[simp] theorem State.setLen_edges (s : State) (m : Memory (BitVec 5)) : (s.setLen m).edges = s.edges := rfl
@[simp] theorem State.setLen_sent (s : State) (m : Memory (BitVec 5)) : (s.setLen m).sent = s.sent := rfl

@[simp] theorem State.setTable_params (s : State) (m : Memory Entry) : (s.setTable m).params = s.params := rfl
@[simp] theorem State.setTable_lifecycle (s : State) (m : Memory Entry) : (s.setTable m).lifecycle = s.lifecycle := rfl
@[simp] theorem State.setTable_complete (s : State) (m : Memory Entry) : (s.setTable m).complete = s.complete := rfl
@[simp] theorem State.setTable_nsym (s : State) (m : Memory Entry) : (s.setTable m).nsym = s.nsym := rfl
@[simp] theorem State.setTable_maxBits (s : State) (m : Memory Entry) : (s.setTable m).maxBits = s.maxBits := rfl
@[simp] theorem State.setTable_len (s : State) (m : Memory Entry) : (s.setTable m).len = s.len := rfl
@[simp] theorem State.setTable_table (s : State) (m : Memory Entry) : (s.setTable m).table = m := rfl
@[simp] theorem State.setTable_rsp (s : State) (m : Memory Entry) : (s.setTable m).rsp = s.rsp := rfl
@[simp] theorem State.setTable_edges (s : State) (m : Memory Entry) : (s.setTable m).edges = s.edges := rfl
@[simp] theorem State.setTable_sent (s : State) (m : Memory Entry) : (s.setTable m).sent = s.sent := rfl

@[simp] theorem State.setRsp_params (s : State) (r : Option Word) : (s.setRsp r).params = s.params := rfl
@[simp] theorem State.setRsp_lifecycle (s : State) (r : Option Word) : (s.setRsp r).lifecycle = s.lifecycle := rfl
@[simp] theorem State.setRsp_complete (s : State) (r : Option Word) : (s.setRsp r).complete = s.complete := rfl
@[simp] theorem State.setRsp_nsym (s : State) (r : Option Word) : (s.setRsp r).nsym = s.nsym := rfl
@[simp] theorem State.setRsp_maxBits (s : State) (r : Option Word) : (s.setRsp r).maxBits = s.maxBits := rfl
@[simp] theorem State.setRsp_len (s : State) (r : Option Word) : (s.setRsp r).len = s.len := rfl
@[simp] theorem State.setRsp_table (s : State) (r : Option Word) : (s.setRsp r).table = s.table := rfl
@[simp] theorem State.setRsp_rsp (s : State) (r : Option Word) : (s.setRsp r).rsp = r := rfl
@[simp] theorem State.setRsp_edges (s : State) (r : Option Word) : (s.setRsp r).edges = s.edges := rfl
@[simp] theorem State.setRsp_sent (s : State) (r : Option Word) : (s.setRsp r).sent = s.sent := rfl

@[simp] theorem State.setEdges_params (s : State) (es : List HostEdge) : (s.setEdges es).params = s.params := rfl
@[simp] theorem State.setEdges_lifecycle (s : State) (es : List HostEdge) : (s.setEdges es).lifecycle = s.lifecycle := rfl
@[simp] theorem State.setEdges_complete (s : State) (es : List HostEdge) : (s.setEdges es).complete = s.complete := rfl
@[simp] theorem State.setEdges_nsym (s : State) (es : List HostEdge) : (s.setEdges es).nsym = s.nsym := rfl
@[simp] theorem State.setEdges_maxBits (s : State) (es : List HostEdge) : (s.setEdges es).maxBits = s.maxBits := rfl
@[simp] theorem State.setEdges_len (s : State) (es : List HostEdge) : (s.setEdges es).len = s.len := rfl
@[simp] theorem State.setEdges_table (s : State) (es : List HostEdge) : (s.setEdges es).table = s.table := rfl
@[simp] theorem State.setEdges_rsp (s : State) (es : List HostEdge) : (s.setEdges es).rsp = s.rsp := rfl
@[simp] theorem State.setEdges_edges (s : State) (es : List HostEdge) : (s.setEdges es).edges = es := rfl
@[simp] theorem State.setEdges_sent (s : State) (es : List HostEdge) : (s.setEdges es).sent = s.sent := rfl

@[simp] theorem State.setSent_params (s : State) (ws : List Word) : (s.setSent ws).params = s.params := rfl
@[simp] theorem State.setSent_lifecycle (s : State) (ws : List Word) : (s.setSent ws).lifecycle = s.lifecycle := rfl
@[simp] theorem State.setSent_complete (s : State) (ws : List Word) : (s.setSent ws).complete = s.complete := rfl
@[simp] theorem State.setSent_nsym (s : State) (ws : List Word) : (s.setSent ws).nsym = s.nsym := rfl
@[simp] theorem State.setSent_maxBits (s : State) (ws : List Word) : (s.setSent ws).maxBits = s.maxBits := rfl
@[simp] theorem State.setSent_len (s : State) (ws : List Word) : (s.setSent ws).len = s.len := rfl
@[simp] theorem State.setSent_table (s : State) (ws : List Word) : (s.setSent ws).table = s.table := rfl
@[simp] theorem State.setSent_rsp (s : State) (ws : List Word) : (s.setSent ws).rsp = s.rsp := rfl
@[simp] theorem State.setSent_edges (s : State) (ws : List Word) : (s.setSent ws).edges = s.edges := rfl
@[simp] theorem State.setSent_sent (s : State) (ws : List Word) : (s.setSent ws).sent = ws := rfl

/-! ### Accessors after an update -/

@[simp] theorem State.setLifecycle_lenSize (s : State) (l : Lifecycle) : (s.setLifecycle l).lenSize = s.lenSize := rfl
@[simp] theorem State.setLifecycle_tableSize (s : State) (l : Lifecycle) : (s.setLifecycle l).tableSize = s.tableSize := rfl
@[simp] theorem State.setLifecycle_lenAt (s : State) (l : Lifecycle) (i : Nat) : (s.setLifecycle l).lenAt i = s.lenAt i := rfl
@[simp] theorem State.setLifecycle_tableAt (s : State) (l : Lifecycle) (j : Nat) : (s.setLifecycle l).tableAt j = s.tableAt j := rfl
@[simp] theorem State.setLifecycle_lengths (s : State) (l : Lifecycle) : (s.setLifecycle l).lengths = s.lengths := rfl

@[simp] theorem State.setComplete_lenSize (s : State) (b : Bool) : (s.setComplete b).lenSize = s.lenSize := rfl
@[simp] theorem State.setComplete_tableSize (s : State) (b : Bool) : (s.setComplete b).tableSize = s.tableSize := rfl
@[simp] theorem State.setComplete_lenAt (s : State) (b : Bool) (i : Nat) : (s.setComplete b).lenAt i = s.lenAt i := rfl
@[simp] theorem State.setComplete_tableAt (s : State) (b : Bool) (j : Nat) : (s.setComplete b).tableAt j = s.tableAt j := rfl
@[simp] theorem State.setComplete_lengths (s : State) (b : Bool) : (s.setComplete b).lengths = s.lengths := rfl

@[simp] theorem State.setNsym_lenSize (s : State) (n : BitVec 16) : (s.setNsym n).lenSize = s.lenSize := rfl
@[simp] theorem State.setNsym_tableSize (s : State) (n : BitVec 16) : (s.setNsym n).tableSize = s.tableSize := rfl
@[simp] theorem State.setNsym_lenAt (s : State) (n : BitVec 16) (i : Nat) : (s.setNsym n).lenAt i = s.lenAt i := rfl
@[simp] theorem State.setNsym_tableAt (s : State) (n : BitVec 16) (j : Nat) : (s.setNsym n).tableAt j = s.tableAt j := rfl

@[simp] theorem State.setMaxBits_lenSize (s : State) (m : BitVec 5) : (s.setMaxBits m).lenSize = s.lenSize := rfl
@[simp] theorem State.setMaxBits_tableSize (s : State) (m : BitVec 5) : (s.setMaxBits m).tableSize = s.tableSize := rfl
@[simp] theorem State.setMaxBits_lenAt (s : State) (m : BitVec 5) (i : Nat) : (s.setMaxBits m).lenAt i = s.lenAt i := rfl
@[simp] theorem State.setMaxBits_tableAt (s : State) (m : BitVec 5) (j : Nat) : (s.setMaxBits m).tableAt j = s.tableAt j := rfl
@[simp] theorem State.setMaxBits_lengths (s : State) (m : BitVec 5) : (s.setMaxBits m).lengths = s.lengths := rfl

@[simp] theorem State.setLen_lenSize (s : State) (m : Memory (BitVec 5)) : (s.setLen m).lenSize = s.lenSize := rfl
@[simp] theorem State.setLen_tableSize (s : State) (m : Memory (BitVec 5)) : (s.setLen m).tableSize = s.tableSize := rfl
@[simp] theorem State.setLen_tableAt (s : State) (m : Memory (BitVec 5)) (j : Nat) : (s.setLen m).tableAt j = s.tableAt j := rfl

@[simp] theorem State.setTable_lenSize (s : State) (m : Memory Entry) : (s.setTable m).lenSize = s.lenSize := rfl
@[simp] theorem State.setTable_tableSize (s : State) (m : Memory Entry) : (s.setTable m).tableSize = s.tableSize := rfl
@[simp] theorem State.setTable_lenAt (s : State) (m : Memory Entry) (i : Nat) : (s.setTable m).lenAt i = s.lenAt i := rfl
@[simp] theorem State.setTable_lengths (s : State) (m : Memory Entry) : (s.setTable m).lengths = s.lengths := rfl

@[simp] theorem State.setRsp_lenSize (s : State) (r : Option Word) : (s.setRsp r).lenSize = s.lenSize := rfl
@[simp] theorem State.setRsp_tableSize (s : State) (r : Option Word) : (s.setRsp r).tableSize = s.tableSize := rfl
@[simp] theorem State.setRsp_lenAt (s : State) (r : Option Word) (i : Nat) : (s.setRsp r).lenAt i = s.lenAt i := rfl
@[simp] theorem State.setRsp_tableAt (s : State) (r : Option Word) (j : Nat) : (s.setRsp r).tableAt j = s.tableAt j := rfl
@[simp] theorem State.setRsp_lengths (s : State) (r : Option Word) : (s.setRsp r).lengths = s.lengths := rfl

@[simp] theorem State.setEdges_lenSize (s : State) (es : List HostEdge) : (s.setEdges es).lenSize = s.lenSize := rfl
@[simp] theorem State.setEdges_tableSize (s : State) (es : List HostEdge) : (s.setEdges es).tableSize = s.tableSize := rfl
@[simp] theorem State.setEdges_lenAt (s : State) (es : List HostEdge) (i : Nat) : (s.setEdges es).lenAt i = s.lenAt i := rfl
@[simp] theorem State.setEdges_tableAt (s : State) (es : List HostEdge) (j : Nat) : (s.setEdges es).tableAt j = s.tableAt j := rfl
@[simp] theorem State.setEdges_lengths (s : State) (es : List HostEdge) : (s.setEdges es).lengths = s.lengths := rfl

@[simp] theorem State.setSent_lenSize (s : State) (ws : List Word) : (s.setSent ws).lenSize = s.lenSize := rfl
@[simp] theorem State.setSent_tableSize (s : State) (ws : List Word) : (s.setSent ws).tableSize = s.tableSize := rfl
@[simp] theorem State.setSent_lenAt (s : State) (ws : List Word) (i : Nat) : (s.setSent ws).lenAt i = s.lenAt i := rfl
@[simp] theorem State.setSent_tableAt (s : State) (ws : List Word) (j : Nat) : (s.setSent ws).tableAt j = s.tableAt j := rfl
@[simp] theorem State.setSent_lengths (s : State) (ws : List Word) : (s.setSent ws).lengths = s.lengths := rfl

/-! ### Reset -/

@[simp] theorem State.resetWith_params (c : Config) : (State.resetWith c).params = c := rfl
@[simp] theorem State.resetWith_lifecycle (c : Config) : (State.resetWith c).lifecycle = .loading := rfl
@[simp] theorem State.resetWith_complete (c : Config) : (State.resetWith c).complete = false := rfl
@[simp] theorem State.resetWith_nsym (c : Config) : (State.resetWith c).nsym = 0 := rfl
@[simp] theorem State.resetWith_maxBits (c : Config) : (State.resetWith c).maxBits = 0 := rfl
@[simp] theorem State.resetWith_len (c : Config) : (State.resetWith c).len = [] := rfl
@[simp] theorem State.resetWith_table (c : Config) : (State.resetWith c).table = [] := rfl
@[simp] theorem State.resetWith_rsp (c : Config) : (State.resetWith c).rsp = none := rfl
@[simp] theorem State.resetWith_edges (c : Config) : (State.resetWith c).edges = [] := rfl
@[simp] theorem State.resetWith_sent (c : Config) : (State.resetWith c).sent = [] := rfl

@[simp] theorem State.applyReset_params (s : State) : s.applyReset.params = s.params := rfl
@[simp] theorem State.applyReset_lifecycle (s : State) : s.applyReset.lifecycle = .loading := rfl
@[simp] theorem State.applyReset_complete (s : State) : s.applyReset.complete = false := rfl
@[simp] theorem State.applyReset_nsym (s : State) : s.applyReset.nsym = 0 := rfl
@[simp] theorem State.applyReset_maxBits (s : State) : s.applyReset.maxBits = 0 := rfl
@[simp] theorem State.applyReset_len (s : State) : s.applyReset.len = [] := rfl
@[simp] theorem State.applyReset_table (s : State) : s.applyReset.table = [] := rfl
@[simp] theorem State.applyReset_rsp (s : State) : s.applyReset.rsp = none := rfl
@[simp] theorem State.applyReset_edges (s : State) : s.applyReset.edges = s.edges := rfl
@[simp] theorem State.applyReset_sent (s : State) : s.applyReset.sent = s.sent := rfl

end Sys2Proof.Machine
end

