-- ==== Sys2Proof/Laws/Ops.lean ====
section
/-! SUPPORT. For each shared operation, what it does, said once: answering and refusing, reading and writing entries of LEN
and TABLE, and the length array a state holds. -/

namespace Sys2Proof.Machine

/-! ### Answering -/

@[simp] theorem rcField_responseWord (rc : ResultCode) (d : Data) : rcField (responseWord rc d) = rc.code := by
  ext i hi
  have h : (responseWord rc d).getLsbD (28 + i) = _ := BitVec.getLsbD_append (x := rc.code) (y := d)
  simp [rcField, h, hi]

@[simp] theorem dataField_responseWord (rc : ResultCode) (d : Data) : dataField (responseWord rc d) = d := by
  ext i hi
  have h : (responseWord rc d).getLsbD i = _ := BitVec.getLsbD_append (x := rc.code) (y := d)
  simp [dataField, h, hi]

/-- An OK response of zero-extended data is the word of that number. -/
theorem responseWord_ok_zext28 {n : Nat} (hn : n ≤ 28) (v : BitVec n) :
    responseWord .ok (zext28 v) = BitVec.ofNat 32 v.toNat := by
  have hv : v.toNat < 2 ^ 28 := lt_of_lt_of_le v.isLt (Nat.pow_le_pow_right (by omega) hn)
  apply BitVec.eq_of_toNat_eq
  have h : (responseWord .ok (zext28 v)).toNat = (0#4).toNat <<< 28 ||| (zext28 v).toNat := BitVec.toNat_append _ _
  have hz : (zext28 v).toNat = v.toNat := by
    rw [zext28, BitVec.toNat_setWidth, Nat.mod_eq_of_lt hv]
  rw [h, hz, BitVec.toNat_ofNat, BitVec.toNat_ofNat, Nat.zero_mod, Nat.zero_shiftLeft, Nat.zero_or,
    Nat.mod_eq_of_lt (by omega)]

/-- The response words of the refusals and of the failed BUILD (R47, R48). -/
theorem responseWord_illegal : responseWord .illegal 0 = 0x10000000 := by decide
theorem responseWord_badState : responseWord .badState 0 = 0x20000000 := by decide
theorem responseWord_capacity : responseWord .capacity 0 = 0x30000000 := by decide
theorem responseWord_lengthRange : responseWord .lengthRange 0 = 0x40000000 := by decide
theorem responseWord_indexRange : responseWord .indexRange 0 = 0x50000000 := by decide
theorem responseWord_oversubscribed : responseWord .oversubscribed 0 = 0x60000000 := by decide

/-- `respond` writes the response port and nothing else. -/
theorem respond_eq (rc : ResultCode) (d : Data) (s : State) : respond rc d s = s.setRsp (some (responseWord rc d)) := rfl

/-- `raise` answers a next state that differs in the response port only. -/
theorem raise_eq (e : ResultCode) (s : State) : raise e s = .next (s.setRsp (some (responseWord e 0))) := rfl

/-! ### Entries of LEN and TABLE -/

theorem State.readLen_eq_some {s : State} {i : Nat} {v : BitVec 5} :
    s.readLen i = some v ↔ i < s.lenSize ∧ v = s.lenAt i := by
  unfold State.readLen
  split <;> simp_all [eq_comm]

theorem State.writeLen_eq_some {s t : State} {i : Nat} {v : BitVec 5} :
    s.writeLen i v = some t ↔ i < s.lenSize ∧ t = s.setLen (Memory.write unwrittenLen s.len i v) := by
  unfold State.writeLen
  split <;> simp_all [eq_comm]

theorem State.readTable_eq_some {s : State} {j : Nat} {e : Entry} :
    s.readTable j = some e ↔ j < s.tableSize ∧ e = s.tableAt j := by
  unfold State.readTable
  split <;> simp_all [eq_comm]

theorem State.readLengths_eq_some {s : State} {ls : List Nat} :
    s.readLengths = some ls ↔ s.nsym.toNat ≤ s.lenSize ∧ ls = s.lengths := by
  unfold State.readLengths
  split <;> simp_all [eq_comm]

theorem State.writeTable_eq_some {s t : State} {ls : List Nat} :
    s.writeTable ls = some t ↔ 2 ^ maxLength ls ≤ s.tableSize ∧ t = s.setTable (expandTable ls s.table) := by
  unfold State.writeTable
  rw [Nat.one_shiftLeft]
  split <;> simp_all [eq_comm]

/-- The entry written is read back, and every other entry is as it was. -/
theorem State.lenAt_setLen_write (s : State) (i : Nat) (v : BitVec 5) (k : Nat) :
    (s.setLen (Memory.write unwrittenLen s.len i v)).lenAt k = if k = i then v else s.lenAt k :=
  Memory.read_write _ _ _ _ _

/-! ### The length array -/

@[simp] theorem State.length_lengths (s : State) : s.lengths.length = s.nsym.toNat := by simp [State.lengths]

theorem State.getD_lengths {s : State} {i : Nat} (h : i < s.nsym.toNat) : s.lengths.getD i 0 = (s.lenAt i).toNat := by
  simp [State.lengths, h]

theorem State.mem_lengths {s : State} {l : Nat} : l ∈ s.lengths ↔ ∃ i < s.nsym.toNat, (s.lenAt i).toNat = l := by
  simp [State.lengths]

/-- The length array depends on NSYM and the entries below it only. -/
theorem State.lengths_congr {s t : State} (hn : s.nsym = t.nsym) (h : ∀ i < s.nsym.toNat, s.lenAt i = t.lenAt i) :
    s.lengths = t.lengths := by
  unfold State.lengths
  rw [← hn]
  apply List.map_congr_left
  intro i hi
  rw [h i (List.mem_range.1 hi)]

/-- One entry pushed appends one length. -/
theorem State.lengths_push (s : State) (v : BitVec 5) (h : s.nsym.toNat + 1 < 2 ^ 16) :
    ((s.setLen (Memory.write unwrittenLen s.len s.nsym.toNat v)).setNsym (s.nsym + 1)).lengths = s.lengths ++ [v.toNat] := by
  have hn : (s.nsym + 1).toNat = s.nsym.toNat + 1 := by
    bv_omega
  unfold State.lengths
  simp only [State.setNsym_nsym, State.setNsym_lenAt, State.lenAt_setLen_write, hn, List.range_succ, List.map_append]
  congr 1
  · apply List.map_congr_left
    intro i hi
    rw [List.mem_range] at hi
    rw [if_neg (by omega)]
  · simp

end Sys2Proof.Machine
end

