-- ==== Sys2Proof/Laws/Build.lean ====
section
/-! SUPPORT. What the steps of BUILD compute: the Kraft sum as a sum over any of its readings, the walk that assigns the
codes as a chain of contiguous ranges, and what a slot reads after the fan-out. -/

namespace Sys2Proof.Machine

/-! ### The largest length -/

theorem le_maxLength {ls : List Nat} {l : Nat} (h : l ∈ ls) : l ≤ maxLength ls := by
  induction ls with
  | nil => simp at h
  | cons a ls ih =>
    rw [maxLength, List.foldr_cons]
    rcases List.mem_cons.1 h with rfl | h
    · exact le_max_left _ _
    · exact le_trans (ih h) (le_max_right _ _)

theorem maxLength_le {ls : List Nat} {b : Nat} (h : ∀ l ∈ ls, l ≤ b) : maxLength ls ≤ b := by
  induction ls with
  | nil => exact Nat.zero_le _
  | cons a ls ih =>
    rw [maxLength, List.foldr_cons]
    exact max_le (h a (by simp)) (ih fun l hl => h l (by simp [hl]))

theorem getD_le_maxLength (ls : List Nat) (i : Nat) : ls.getD i 0 ≤ maxLength ls := by
  by_cases h : i < ls.length
  · rw [List.getD_eq_getElem _ _ h]
    exact le_maxLength (List.getElem_mem h)
  · rw [List.getD_eq_default _ _ (by omega)]
    exact Nat.zero_le _

/-! ### ORD -/

theorem mem_symbolsOfLength {ls : List Nat} {l s : Nat} :
    s ∈ symbolsOfLength ls l ↔ s < ls.length ∧ ls.getD s 0 = l := by
  simp [symbolsOfLength]

theorem mem_ord {ls : List Nat} {s : Nat} : s ∈ ord ls ↔ s < ls.length ∧ 0 < ls.getD s 0 := by
  unfold ord
  simp only [List.mem_flatMap, List.mem_range, mem_symbolsOfLength]
  constructor
  · rintro ⟨l, _, hs, hl⟩
    exact ⟨hs, by omega⟩
  · rintro ⟨hs, hl⟩
    have := getD_le_maxLength ls s
    exact ⟨ls.getD s 0 - 1, by omega, hs, by omega⟩

/-- ORD by ascending length never goes back. -/
theorem ord_lengths_sorted (ls : List Nat) : ((orderedCodes ls).map Prod.snd).Pairwise (· ≤ ·) := by
  unfold orderedCodes ord
  rw [List.map_map, List.pairwise_map, List.pairwise_flatMap]
  constructor
  · intro l _
    exact List.pairwise_of_forall_mem_list fun a ha b hb => by
      rw [mem_symbolsOfLength] at ha hb
      simp only [Function.comp]
      omega
  · refine List.pairwise_lt_range.imp ?_
    intro l k hlk a ha b hb
    rw [mem_symbolsOfLength] at ha hb
    simp only [Function.comp]
    omega

/-! ### The walk that assigns the codes -/

/-- The slots `2^(M-L)` of each pair, summed. -/
def rangeSum (m : Nat) (ps : List (Nat × Nat)) : Nat := (ps.map fun p => 2 ^ (m - p.2)).sum

theorem map_assignCodes (next bit : Nat) (ps : List (Nat × Nat)) :
    (assignCodes next bit ps).map (fun c => (c.sym, c.len)) = ps := by
  induction ps generalizing next bit with
  | nil => rfl
  | cons p ps ih => simp [assignCodes, ih]

/-- One step of the walk: the code's range begins where the walk stands and ends `2^(M-L)` slots on, where the walk
stands next. -/
theorem walk_range {m next bit l : Nat} (h1 : bit ≤ l) (h2 : l ≤ m) :
    (next <<< (l - bit)) <<< (m - l) = next * 2 ^ (m - bit) ∧
    (next <<< (l - bit) + 1) <<< (m - l) = next * 2 ^ (m - bit) + 2 ^ (m - l) ∧
    (next <<< (l - bit) + 1) * 2 ^ (m - l) = next * 2 ^ (m - bit) + 2 ^ (m - l) := by
  have hp : 2 ^ (l - bit) * 2 ^ (m - l) = 2 ^ (m - bit) := by
    rw [← Nat.pow_add]
    congr 1
    omega
  simp only [Nat.shiftLeft_eq, Nat.add_mul, Nat.mul_assoc, hp, Nat.one_mul, and_self]

/-- The lengths of the pairs are at least `bit`, at most `m`, and never fall: what the walk needs. -/
def Walkable (m bit : Nat) (ps : List (Nat × Nat)) : Prop :=
  (∀ p ∈ ps, bit ≤ p.2 ∧ p.2 ≤ m) ∧ (ps.map Prod.snd).Pairwise (· ≤ ·)

theorem Walkable.tail {m bit : Nat} {p : Nat × Nat} {ps : List (Nat × Nat)} (h : Walkable m bit (p :: ps)) :
    Walkable m p.2 ps := by
  obtain ⟨h1, h2⟩ := h
  rw [List.map_cons, List.pairwise_cons] at h2
  exact ⟨fun q hq => ⟨h2.1 _ (List.mem_map_of_mem hq), (h1 q (by simp [hq])).2⟩, h2.2⟩

/-- Every code's range lies between where the walk stands and `rangeSum` slots on. -/
theorem assignCodes_bounds {m : Nat} {ps : List (Nat × Nat)} : ∀ {next bit : Nat}, Walkable m bit ps →
    ∀ c ∈ assignCodes next bit ps,
      next * 2 ^ (m - bit) ≤ c.lo m ∧ c.hi m ≤ next * 2 ^ (m - bit) + rangeSum m ps ∧
      c.hi m = c.lo m + 2 ^ (m - c.len) := by
  induction ps with
  | nil => intro _ _ _ c hc; simp [assignCodes] at hc
  | cons p ps ih =>
    intro next bit h c hc
    obtain ⟨hb, hm⟩ := h.1 p (by simp)
    obtain ⟨w1, w2, w3⟩ := walk_range (next := next) hb hm
    have hsum : rangeSum m (p :: ps) = 2 ^ (m - p.2) + rangeSum m ps := by simp [rangeSum]
    rw [assignCodes, List.mem_cons] at hc
    rcases hc with rfl | hc
    · exact ⟨by simp [Code.lo, w1], by simp [Code.hi, w2, hsum], by simp [Code.lo, Code.hi, w1, w2]⟩
    · have hrest := ih h.tail c hc
      rw [w3] at hrest
      have hpos := Nat.two_pow_pos (m - p.2)
      omega

/-- The ranges are contiguous: the first begins where the walk stands, each next one begins where the one before ends,
and the last ends `rangeSum` slots on. -/
theorem assignCodes_contiguous {m : Nat} {ps : List (Nat × Nat)} : ∀ {next bit : Nat}, Walkable m bit ps →
    ((assignCodes next bit ps).head?.map (fun c => c.lo m)).getD (next * 2 ^ (m - bit)) = next * 2 ^ (m - bit) ∧
    (assignCodes next bit ps).IsChain (fun a b => b.lo m = a.hi m) ∧
    ((assignCodes next bit ps).getLast?.map (fun c => c.hi m)).getD (next * 2 ^ (m - bit)) =
      next * 2 ^ (m - bit) + rangeSum m ps := by
  induction ps with
  | nil => intro next bit _; simp [assignCodes, rangeSum]
  | cons p ps ih =>
    intro next bit h
    obtain ⟨hb, hm⟩ := h.1 p (by simp)
    obtain ⟨w1, w2, w3⟩ := walk_range (next := next) hb hm
    have hsum : rangeSum m (p :: ps) = 2 ^ (m - p.2) + rangeSum m ps := by simp [rangeSum]
    obtain ⟨i1, i2, i3⟩ := ih (next := next <<< (p.2 - bit) + 1) h.tail
    rw [w3] at i1 i3
    refine ⟨by simp [assignCodes, Code.lo, w1], ?_, ?_⟩
    · rw [assignCodes, List.isChain_cons]
      refine ⟨fun b hb => ?_, i2⟩
      rw [Option.mem_def] at hb
      rw [hb] at i1
      simpa [Code.hi, w2] using i1
    · rw [assignCodes, hsum]
      cases ps with
      | nil => simp [assignCodes, Code.hi, w2, rangeSum]
      | cons q qs =>
        rw [assignCodes, List.getLast?_cons_cons, ← assignCodes]
        have hne : (assignCodes (next <<< (p.2 - bit) + 1) p.2 (q :: qs)).getLast? ≠ none := by simp [assignCodes]
        obtain ⟨c, hc⟩ := Option.ne_none_iff_exists'.1 hne
        rw [hc] at i3 ⊢
        simp only [Option.map_some, Option.getD_some] at i3 ⊢
        omega

/-- Two codes of the walk, the first earlier: the first one's range ends before the second one's begins. -/
theorem assignCodes_disjoint {m : Nat} {ps : List (Nat × Nat)} : ∀ {next bit : Nat}, Walkable m bit ps →
    (assignCodes next bit ps).Pairwise (fun a b => a.hi m ≤ b.lo m) := by
  induction ps with
  | nil => intro _ _ _; simp [assignCodes]
  | cons p ps ih =>
    intro next bit h
    obtain ⟨hb, hm⟩ := h.1 p (by simp)
    obtain ⟨w1, w2, w3⟩ := walk_range (next := next) hb hm
    rw [assignCodes, List.pairwise_cons]
    refine ⟨fun c hc => ?_, ih h.tail⟩
    have := (assignCodes_bounds h.tail c hc).1
    rw [w3] at this
    simpa [Code.hi, w2] using this

/-- The walk of BUILD meets its needs, for every length array. -/
theorem orderedCodes_walkable (ls : List Nat) : Walkable (maxLength ls) 0 (orderedCodes ls) := by
  refine ⟨fun p hp => ⟨Nat.zero_le _, ?_⟩, ord_lengths_sorted ls⟩
  obtain ⟨s, _, rfl⟩ := List.mem_map.1 hp
  exact getD_le_maxLength ls s

/-- A canonical code stands for a symbol of ORD and its length. -/
theorem mem_canonicalCodes {ls : List Nat} {c : Code} (h : c ∈ canonicalCodes ls) :
    c.sym ∈ ord ls ∧ c.len = ls.getD c.sym 0 := by
  have hm : (c.sym, c.len) ∈ (canonicalCodes ls).map (fun c => (c.sym, c.len)) := List.mem_map.2 ⟨c, h, rfl⟩
  rw [canonicalCodes, map_assignCodes, orderedCodes, List.mem_map] at hm
  obtain ⟨s, hs, he⟩ := hm
  rw [Prod.mk.injEq] at he
  exact ⟨he.1 ▸ hs, by rw [← he.2, he.1]⟩

theorem code_len_le {ls : List Nat} {c : Code} (h : c ∈ canonicalCodes ls) : c.len ≤ maxLength ls := by
  rw [(mem_canonicalCodes h).2]
  exact getD_le_maxLength ls _

/-- A slot lies in a code's range exactly when its leading bits are the code (R75). -/
theorem covers_iff {m : Nat} {c : Code} {j : Nat} : c.covers m j = true ↔ c.lo m ≤ j ∧ j < c.hi m := by
  have hp : 0 < 2 ^ (m - c.len) := Nat.two_pow_pos _
  simp only [Code.covers, Code.lo, Code.hi, decide_eq_true_eq, Nat.shiftRight_eq_div_pow, Nat.shiftLeft_eq]
  rw [Nat.div_eq_iff hp]
  have h3 : 1 ≤ 2 ^ (m - c.len) := hp
  rw [Nat.add_mul]
  omega

/-! ### The fan-out -/

/-- After the fan-out a slot in no range reads as before, and a slot in the range of exactly the codes that agree on their
entry reads as that entry. -/
theorem read_fanOut (m : Nat) (cs : List Code) : ∀ (t : Memory Entry) (j : Nat) (e : Entry),
    (∀ c ∈ cs, c.lo m ≤ j → j < c.hi m → codeEntry c.sym c.len = e) →
    Memory.read unwrittenEntry (fanOut m cs t) j =
      if ∃ c ∈ cs, c.lo m ≤ j ∧ j < c.hi m then e else Memory.read unwrittenEntry t j := by
  induction cs with
  | nil => intro t j e _; simp [fanOut]
  | cons c cs ih =>
    intro t j e h
    have hstep : fanOut m (c :: cs) t =
      fanOut m cs (Memory.fill unwrittenEntry t (c.lo m) (c.hi m) (codeEntry c.sym c.len)) := rfl
    rw [hstep, ih _ j e fun c' hc' => h c' (by simp [hc']), Memory.read_fill]
    by_cases hrest : ∃ c' ∈ cs, c'.lo m ≤ j ∧ j < c'.hi m
    · obtain ⟨c', hc', hr⟩ := hrest
      rw [if_pos ⟨c', hc', hr⟩, if_pos ⟨c', by simp [hc'], hr⟩]
    · rw [if_neg hrest]
      by_cases hc : c.lo m ≤ j ∧ j < c.hi m
      · rw [if_pos hc, if_pos ⟨c, by simp, hc⟩]
        exact h c (by simp) hc.1 hc.2
      · rw [if_neg hc, if_neg]
        rintro ⟨c', hc', hr⟩
        rcases List.mem_cons.1 hc' with rfl | hc'
        · exact hc hr
        · exact hrest ⟨c', hc', hr⟩

/-- The fan-out keeps the canonical form when every range lies in the memory. -/
theorem wf_fanOut {size m : Nat} {cs : List Code} : ∀ {t : Memory Entry}, Memory.wf unwrittenEntry size t = true →
    (∀ c ∈ cs, c.lo m ≤ c.hi m ∧ c.hi m ≤ size) → Memory.wf unwrittenEntry size (fanOut m cs t) = true := by
  induction cs with
  | nil => intro t h _; exact h
  | cons c cs ih =>
    intro t h hr
    exact ih (Memory.wf_fill _ h (hr c (by simp)).1 (hr c (by simp)).2) fun c' hc' => hr c' (by simp [hc'])

end Sys2Proof.Machine
end

