-- ==== Sys2Proof/Laws/Exec.lean ====
section
/-! SUPPORT. Everything each meaning and each step can do, said once: if it answers a next state, then one of these cases
holds. -/

namespace Sys2Proof.Machine

theorem execPushLen_cases {clen : BitVec 5} {s t : State} (h : execPushLen clen s = .next t) :
    (s.lifecycle ≠ .loading ∧ t = respond .badState 0 s) ∨
    (s.lifecycle = .loading ∧ s.nsym = s.params.nsymMax ∧ t = respond .capacity 0 s) ∨
    (s.lifecycle = .loading ∧ s.nsym ≠ s.params.nsymMax ∧ s.params.lmax < clen ∧ t = respond .lengthRange 0 s) ∨
    (s.lifecycle = .loading ∧ s.nsym.toNat < s.lenSize ∧ clen ≤ s.params.lmax ∧
      t = respond .ok (zext28 (s.nsym + 1))
        ((s.setLen (Memory.write unwrittenLen s.len s.nsym.toNat clen)).setNsym (s.nsym + 1))) := by
  unfold execPushLen raise at h
  split at h
  · next hl => exact .inl ⟨hl, by simpa using h.symm⟩
  next hl =>
  have hl := not_not.1 hl
  split at h
  · next hn => exact .inr (.inl ⟨hl, hn, by simpa using h.symm⟩)
  next hn =>
  split at h
  · next hc => exact .inr (.inr (.inl ⟨hl, hn, hc, by simpa using h.symm⟩))
  next hc =>
  split at h
  · cases h
  next u hw =>
  obtain ⟨hsize, rfl⟩ := State.writeLen_eq_some.1 hw
  exact .inr (.inr (.inr ⟨hl, hsize, BitVec.not_lt.1 hc, by simpa using h.symm⟩))

theorem execReadLen_cases {idx : BitVec 16} {s t : State} (h : execReadLen idx s = .next t) :
    (s.nsym ≤ idx ∧ t = respond .indexRange 0 s) ∨
    (idx < s.nsym ∧ idx.toNat < s.lenSize ∧ t = respond .ok (zext28 (s.lenAt idx.toNat)) s) := by
  unfold execReadLen raise at h
  split at h
  · next hr => exact .inl ⟨hr, by simpa using h.symm⟩
  next hr =>
  split at h
  · cases h
  next v hv =>
  obtain ⟨hsize, rfl⟩ := State.readLen_eq_some.1 hv
  exact .inr ⟨BitVec.not_le.1 hr, hsize, by simpa using h.symm⟩

theorem execLookup_cases {idx : BitVec 16} {s t : State} (h : execLookup idx s = .next t) :
    (s.lifecycle ≠ .ready ∧ t = respond .badState 0 s) ∨
    (s.lifecycle = .ready ∧ s.inTable idx = false ∧ t = respond .indexRange 0 s) ∨
    (s.lifecycle = .ready ∧ s.inTable idx = true ∧ idx.toNat < s.tableSize ∧
      t = respond .ok (zext28 (s.tableAt idx.toNat).bits) s) := by
  unfold execLookup raise at h
  split at h
  · next hl => exact .inl ⟨hl, by simpa using h.symm⟩
  next hl =>
  have hl := not_not.1 hl
  split at h
  · next hr => exact .inr (.inl ⟨hl, by simpa using hr, by simpa using h.symm⟩)
  next hr =>
  split at h
  · cases h
  next e he =>
  obtain ⟨hsize, rfl⟩ := State.readTable_eq_some.1 he
  exact .inr (.inr ⟨hl, by simpa using hr, hsize, by simpa using h.symm⟩)

theorem execReadReg_cases {reg : BitVec 4} {s t : State} (h : execReadReg reg s = .next t) :
    (statusReg? reg = none ∧ t = respond .illegal 0 s) ∨ ∃ r, statusReg? reg = some r ∧ t = respond .ok (r.value s) s := by
  unfold execReadReg raise at h
  split at h
  · next r hr => exact .inr ⟨r, hr, by simpa using h.symm⟩
  · next hr => exact .inl ⟨hr, by simpa using h.symm⟩

theorem execBuild_cases {s t : State} (h : execBuild s = .next t) :
    (s.lifecycle ≠ .loading ∧ t = respond .badState 0 s) ∨
    (s.lifecycle = .loading ∧ s.nsym.toNat ≤ s.lenSize ∧ overSubscribed (ksum s.lengths) (maxLength s.lengths) = true ∧
      t = respond .oversubscribed 0 (s.endBuild .failed 0 false)) ∨
    (s.lifecycle = .loading ∧ s.nsym.toNat ≤ s.lenSize ∧ overSubscribed (ksum s.lengths) (maxLength s.lengths) = false ∧
      2 ^ maxLength s.lengths ≤ s.tableSize ∧
      t = respond .ok (buildData (completeFlag (ksum s.lengths) (maxLength s.lengths)) (BitVec.ofNat 5 (maxLength s.lengths)))
        ((s.setTable (expandTable s.lengths s.table)).endBuild .ready (BitVec.ofNat 5 (maxLength s.lengths))
          (completeFlag (ksum s.lengths) (maxLength s.lengths)))) := by
  unfold execBuild raise at h
  split at h
  · next hl => exact .inl ⟨hl, by simpa using h.symm⟩
  next hl =>
  have hl := not_not.1 hl
  split at h
  · cases h
  next ls hls =>
  obtain ⟨hn, rfl⟩ := State.readLengths_eq_some.1 hls
  unfold buildFrom at h
  split at h
  · next hk => exact .inr (.inl ⟨hl, hn, hk, by simpa using h.symm⟩)
  next hk =>
  split at h
  · cases h
  next u hu =>
  obtain ⟨hsize, rfl⟩ := State.writeTable_eq_some.1 hu
  exact .inr (.inr ⟨hl, hn, by simpa using hk, hsize, by simpa using h.symm⟩)

/-- A step is one of: nothing driven, reset, the transfer of the pending response, an accepted command, an idle edge. -/
theorem step_cases (s : State) :
    (s.edges = [] ∧ step s = .next s) ∨
    ∃ e rest, s.edges = e :: rest ∧
      ((e.rst = true ∧ step s = .next (s.setEdges rest).applyReset) ∨
        (∃ w, e.rst = false ∧ e.rspReady = true ∧ s.rsp = some w ∧
          step s = .next ((s.setEdges rest).transferResponse w)) ∨
        (∃ w, e.rst = false ∧ s.rsp = none ∧ e.cmd = some w ∧ step s = runCommandWord w (s.setEdges rest)) ∨
        (e.rst = false ∧ (s.rsp = none → e.cmd = none) ∧ (s.rsp ≠ none → e.rspReady = false) ∧
          step s = .next (s.setEdges rest))) := by
  cases hes : s.edges with
  | nil => exact .inl ⟨rfl, by simp [step, nextEdge, hes]⟩
  | cons e rest =>
    refine .inr ⟨e, rest, rfl, ?_⟩
    cases hrst : e.rst with
    | true => exact .inl ⟨rfl, by simp [step, nextEdge, hes, clockEdge, hrst]⟩
    | false =>
      cases hrsp : s.rsp with
      | none =>
        cases hcmd : e.cmd with
        | none =>
          refine .inr (.inr (.inr ⟨rfl, by simp, by simp, ?_⟩))
          simp [step, nextEdge, hes, clockEdge, hrst, responseTaken, commandAccepted, cmdReady, hrsp, hcmd]
        | some w =>
          refine .inr (.inr (.inl ⟨w, rfl, rfl, rfl, ?_⟩))
          simp [step, nextEdge, hes, clockEdge, hrst, responseTaken, commandAccepted, cmdReady, hrsp, hcmd]
      | some w =>
        cases hready : e.rspReady with
        | true =>
          refine .inr (.inl ⟨w, rfl, rfl, rfl, ?_⟩)
          simp [step, nextEdge, hes, clockEdge, hrst, responseTaken, hrsp, hready]
        | false =>
          refine .inr (.inr (.inr ⟨rfl, by simp, by simp, ?_⟩))
          simp [step, nextEdge, hes, clockEdge, hrst, responseTaken, commandAccepted, cmdReady, hrsp, hready]

end Sys2Proof.Machine
end

