-- ==== Sys2Proof/Laws/PerInstr.lean ====
section
/-! SUPPORT. Per-instruction lemmas. Family Spelling: the encoded word spells the command's own row of the opcode map
(R50), and the row is one of the map's. -/

namespace Sys2Proof.Laws

/-- The mask of an index-format row drops the operand and keeps the rest of the word (R49, R50). -/
theorem index_word_and_mask (value : Word) (idx : BitVec 16) (h : value &&& 0xFFFF0000 = value) :
    (value ||| idx.setWidth 32) &&& 0xFFFF0000 = value := by
  have hidx : 0xFFFF0000 &&& idx.setWidth 32 = (0 : Word) := by
    ext i hi
    interval_cases i <;> simp
  rw [BitVec.and_comm, BitVec.and_or_distrib_left, BitVec.and_comm _ value, h, hidx]
  exact BitVec.or_zero

/-- The encoded word spells the command's row, a row of the opcode map. -/
def Spelling.Statement (i : Instr) : Prop := i.row.spells (encode i) = true ∧ i.row ∈ opcodeMap

theorem Spelling.clear : Spelling.Statement .clear := ⟨by decide, by decide⟩

theorem Spelling.pushLen (clen : BitVec 5) : Spelling.Statement (.pushLen clen) := by
  refine ⟨?_, by simp [opcodeMap, Instr.row]⟩
  revert clen
  decide

theorem Spelling.build : Spelling.Statement .build := ⟨by decide, by decide⟩

theorem Spelling.lookup (idx : BitVec 16) : Spelling.Statement (.lookup idx) :=
  ⟨decide_eq_true (index_word_and_mask _ idx (by decide)), by simp [opcodeMap, Instr.row]⟩

theorem Spelling.readLen (idx : BitVec 16) : Spelling.Statement (.readLen idx) :=
  ⟨decide_eq_true (index_word_and_mask _ idx (by decide)), by simp [opcodeMap, Instr.row]⟩

theorem Spelling.readReg (reg : BitVec 4) : Spelling.Statement (.readReg reg) := by
  refine ⟨?_, by simp [opcodeMap, Instr.row]⟩
  revert reg
  decide

end Sys2Proof.Laws
end

