-- ==== Sys2Proof/Tests/Slice0.lean ====
section
/-! SUPPORT. Tests of the model, their expected values taken from the spec's worked examples and vectors (95_test_vectors.md),
the smoke tests of the checks, and for each statement with hypotheses a witness that meets them together. -/

namespace Sys2Proof.Tests

open Sys2Proof Sys2Proof.Machine

/-! ### Helpers -/

/-- A LOADING state of the default configuration that holds the lengths listed. -/
def loaded (ls : List Nat) : State :=
  { State.reset with
    nsym := BitVec.ofNat 16 ls.length
    len := (ls.zipIdx.map fun p => (p.2, BitVec.ofNat 5 p.1)).filter fun c => c.2 ≠ 0 }

/-- The state after a command, the reset state where there is none. -/
def after : Host.Outcome State Fault Refusal → State
  | .next t => t
  | _ => State.reset

def isNext : Host.Outcome State Fault Refusal → Bool
  | .next _ => true
  | _ => false

theorem eq_next_after {o : Host.Outcome State Fault Refusal} (h : isNext o = true) : o = .next (after o) := by
  cases o <;> simp_all [isNext, after]

/-- The response a command leaves, and whether it is the one named. -/
def answers (i : Instr) (s : State) (w : Word) : Bool := isNext (exec i s) && (after (exec i s)).rsp = some w

/-- READY after BUILD of W1's lengths. -/
def w1 : State := after (exec .build (loaded [2, 3, 1, 3]))

/-- READY after BUILD of W2's lengths `[0,1]`, the degenerate code. -/
def w2 : State := after (exec .build (loaded [0, 1]))

/-- READY after BUILD of B4's lengths, an incomplete code. -/
def b4 : State := after (exec .build (loaded [2, 2, 2]))

/-- FAILED after BUILD of W4's lengths. -/
def w4 : State := after (exec .build (loaded [1, 1, 1]))

/-- LOADING with the length memory full (R62, L7, L8). -/
def full : State := { State.reset with nsym := 288 }

/-- The host offers a word, then drives reset. -/
def offered (s : State) (w : Word) : State :=
  { s with rsp := none, edges := [⟨false, some w, false⟩, ⟨true, some 0x30000000, true⟩] }

/-! ### Smoke tests of the checks -/

theorem test_config_default_wf : Config.default.wf = true := by decide
theorem test_config_refuses_no_symbols : (Config.mk 0 15).nsymMaxLegal = false := by decide
theorem test_config_refuses_lmax_0 : (Config.mk 288 0).lmaxLegal = false := by decide
theorem test_config_refuses_lmax_17 : (Config.mk 288 17).lmaxLegal = false := by decide
/-- One ill-formed word for each row of the opcode map, from 95_test_vectors.md (C3, L6, B19, K9, L16, C12), and two
reserved opcodes. -/
theorem test_words_refused :
    ([0x10000001, 0x20000020, 0x30000001, 0x40100000, 0x50010000, 0x60000010, 0x00000000, 0xF0000000] : List Word).all
      (fun w => commandWordWf w = false) = true := by decide
theorem test_memory_refuses_unsorted : Memory.wf (0 : BitVec 5) 4 [(2, 1), (1, 1)] = false := by decide
theorem test_memory_refuses_default : Memory.wf (0 : BitVec 5) 4 [(1, 0)] = false := by decide
theorem test_memory_refuses_absent_index : Memory.wf (0 : BitVec 5) 4 [(4, 1)] = false := by decide

/-! ### Decoding: words written out from R49 and R50 -/

theorem test_decode_clear : decode 0b00010000000000000000000000000000 = .ok .clear := by decide
theorem test_decode_pushLen : decode 0b00100000000000000000000000010011 = .ok (.pushLen 19) := by decide
theorem test_decode_build : decode 0b00110000000000000000000000000000 = .ok .build := by decide
theorem test_decode_lookup : decode 0b01000000000000001000000000000110 = .ok (.lookup 0x8006) := by decide
theorem test_decode_readLen : decode 0b01010000000000000000000100100000 = .ok (.readLen 288) := by decide
theorem test_decode_readReg : decode 0b01100000000000000000000000001011 = .ok (.readReg 11) := by decide
theorem test_decode_reserved_bit : decode 0x2FFFFFE1 = .error (.reservedBits 2) := by decide
theorem test_decode_reserved_opcode : decode 0xF0000000 = .error (.reservedOpcode 15) := by decide

/-! ### One command each -/

/-- C1: CLEAR in READY answers 0 and keeps LEN and TABLE. -/
theorem test_clear : answers .clear w1 0 = true ∧ (after (exec .clear w1)).lifecycle = .loading ∧
    (after (exec .clear w1)).table = w1.table := by decide
/-- L1. -/
theorem test_pushLen : answers (.pushLen 2) State.reset 1 = true ∧ (after (exec (.pushLen 2) State.reset)).len = [(0, 2)] := by
  decide
/-- L8: CAPACITY before LENGTH_RANGE. -/
theorem test_pushLen_priority : answers (.pushLen 16) full 0x30000000 = true := by decide
/-- W1. -/
theorem test_build_w1 : answers .build (loaded [2, 3, 1, 3]) 0x23 = true ∧
    w1.table = [(0, .valid 2 1), (1, .valid 2 1), (2, .valid 2 1), (3, .valid 2 1), (4, .valid 0 2), (5, .valid 0 2),
      (6, .valid 1 3), (7, .valid 3 3)] := by decide
/-- B10: the widest table, one code of length 15. -/
theorem test_build_b10 : answers .build (loaded [15]) 0xF = true ∧ (after (exec .build (loaded [15]))).table = [(0, .valid 0 15)] := by
  decide +kernel
/-- W1, index `101`. -/
theorem test_lookup : answers (.lookup 5) w1 0x00220000 = true := by decide
/-- K6: an INVALID entry is answered OK. -/
theorem test_lookup_invalid : answers (.lookup 3) b4 0 = true := by decide
/-- L15: READ_LEN in FAILED. -/
theorem test_readLen_failed : answers (.readLen 2) w4 1 = true := by decide
/-- C5, C10. -/
theorem test_readReg : answers (.readReg 0) w1 5 = true ∧ answers (.readReg 3) w1 0x000F0120 = true := by decide
/-- 95_test_vectors.md P3 rows 15 and 4, through the port: an illegal word after reset, then PUSH_LEN 15. -/
theorem test_step_runs_the_word : isNext (step (State.reset.withFetchWord 32 0x2000000F)) = true ∧
    (after (step (State.reset.withFetchWord 32 0x2000000F))).rsp = some 1 ∧
    (after (step (State.reset.withFetchWord 32 0x70000000))).rsp = some 0x10000000 := by decide
/-- R59: `LOOKUP 0b110 ; x`. -/
theorem test_assembler_line :
    assemble? ['L', 'O', 'O', 'K', 'U', 'P', ' ', '0', 'b', '1', '1', '0', ' ', ';', ' ', 'x'] = some (.lookup 6) := by decide
/-- The intermediate values W1 records: HIST, OFFS, ORD, codes. -/
theorem test_w1_steps : [1, 2, 3].map (hist [2, 3, 1, 3]) = [1, 1, 2] ∧ [1, 2, 3, 4].map (offs [2, 3, 1, 3]) = [0, 1, 2, 4] ∧
    countingSortOrd 15 [2, 3, 1, 3] = [2, 0, 1, 3] ∧ (canonicalCodes [2, 3, 1, 3]).map Code.code = [0, 2, 6, 7] := by decide

/-! ### Witnesses: states and operands that meet the hypotheses of the statements -/

theorem inv_w1 : Inv w1 := by constructor <;> decide
theorem inv_b4 : Inv b4 := by constructor <;> decide
theorem inv_w4 : Inv w4 := by constructor <;> decide
theorem inv_w2 : Inv w2 := by constructor <;> decide

theorem witness_EncodeOfDecode : decode 0x4000FFFF = .ok (.lookup 0xFFFF) := by decide

theorem witness_StepRunsTheDecodedCommand : (offered w1 0x40000005).rsp = none ∧
    (offered w1 0x40000005).edges = ⟨false, some 0x40000005, false⟩ :: [⟨true, some 0x30000000, true⟩] ∧
    decode 0x40000005 = .ok (.lookup 5) := by decide

theorem witness_FetchWordRunsNext : decodeTableWord 32 0x40000005 = some (.lookup 5) := by decide

/-- A word for each clause: reserved opcodes at the ends of their ranges, and one reserved bit in each format. -/
theorem witness_ReservedWordsAnswerIllegal :
    (offered w1 0x00000000).rsp = none ∧
    (0x0FFFFFFF : Word).extractLsb' 28 4 = 0x0 ∧ 0x7 ≤ (0x70000000 : Word).extractLsb' 28 4 ∧
    0x7 ≤ (0xF0000000 : Word).extractLsb' 28 4 ∧
    ((0x10000001 : Word).extractLsb' 28 4 = 0x1 ∧ (0x10000001 : Word).extractLsb' 0 28 ≠ 0) ∧
    ((0x20000020 : Word).extractLsb' 28 4 = 0x2 ∧ (0x20000020 : Word).extractLsb' 5 23 ≠ 0) ∧
    ((0x38000000 : Word).extractLsb' 28 4 = 0x3 ∧ (0x38000000 : Word).extractLsb' 0 28 ≠ 0) ∧
    ((0x40010000 : Word).extractLsb' 28 4 = 0x4 ∧ (0x40010000 : Word).extractLsb' 16 12 ≠ 0) ∧
    ((0x50010000 : Word).extractLsb' 28 4 = 0x5 ∧ (0x50010000 : Word).extractLsb' 16 12 ≠ 0) ∧
    ((0x60000010 : Word).extractLsb' 28 4 = 0x6 ∧ (0x60000010 : Word).extractLsb' 4 24 ≠ 0) := by decide

theorem witness_ResetEdgeSetsResetState :
    { w1 with edges := [⟨true, some 0x30000000, true⟩] }.edges = ⟨true, some 0x30000000, true⟩ :: [] ∧
    (⟨true, some 0x30000000, true⟩ : HostEdge).rst = true ∧ w1.rsp = some 0x23 := by decide

theorem witness_ResetAbandonsTheCommand : Inv (offered (loaded [2, 3, 1, 3]) 0x30000000) ∧
    (offered (loaded [2, 3, 1, 3]) 0x30000000).rsp = none ∧
    (offered (loaded [2, 3, 1, 3]) 0x30000000).edges =
      ⟨false, some 0x30000000, false⟩ :: ⟨true, some 0x30000000, true⟩ :: [] :=
  ⟨by constructor <;> decide, by decide, by decide⟩

/-- A pending response, with a host that is ready and with one that is not. -/
theorem witness_ResponseHeldUntilTaken : w1.rsp = some 0x23 ∧
    { w1 with edges := [⟨false, some 0x10000000, true⟩] }.edges = ⟨false, some 0x10000000, true⟩ :: [] ∧
    { w1 with edges := [⟨false, some 0x10000000, false⟩] }.edges = ⟨false, some 0x10000000, false⟩ :: [] := by decide

theorem witness_IdleBlockKeepsItsState : State.reset.rsp = none ∧ State.reset.edges = [] ∧
    { State.reset with edges := [⟨false, none, true⟩] }.edges = ⟨false, none, true⟩ :: [] := by decide

/-- One step for each alternative: reset, acceptance, transfer, nothing. -/
theorem witness_OneResponseForEachCommand :
    isNext (step { w1 with edges := [⟨true, none, false⟩] }) = true ∧
    commandAccepted State.reset ⟨false, some 0x10000000, true⟩ = some 0x10000000 ∧
    responseTaken w1 ⟨false, some 0x10000000, true⟩ = some 0x23 ∧
    commandAccepted w1 ⟨false, some 0x10000000, false⟩ = none := by decide

/-- PUSH_LEN: each refusal, and the last push that is accepted, with the longest length. -/
theorem witness_PushLenAppendsOneLength :
    w1.lifecycle ≠ .loading ∧ w4.lifecycle ≠ .loading ∧
    (full.lifecycle = .loading ∧ full.nsym = full.params.nsymMax) ∧
    (State.reset.lifecycle = .loading ∧ State.reset.nsym ≠ State.reset.params.nsymMax ∧
      State.reset.params.lmax.toNat < (16 : BitVec 5).toNat) ∧
    ({ full with nsym := 287 }.nsym.toNat < full.params.nsymMax.toNat ∧ (15 : BitVec 5).toNat ≤ full.params.lmax.toNat) := by
  decide

/-- READ_LEN: the first index out of range and the last one in it. -/
theorem witness_ReadLenReadsOneLength : w1.nsym.toNat ≤ (4 : BitVec 16).toNat ∧
    (w1.nsym.toNat ≤ w1.params.nsymMax.toNat ∧ (3 : BitVec 16).toNat < w1.nsym.toNat) := by decide

/-- LOOKUP: outside READY, the first index out of range, the last one in it with a valid and with an INVALID entry. -/
theorem witness_LookupReadsOneEntry : w4.lifecycle ≠ .ready ∧
    (w1.lifecycle = .ready ∧ 2 ^ w1.maxBits.toNat ≤ (8 : BitVec 16).toNat) ∧
    (w1.maxBits.toNat ≤ w1.params.lmax.toNat ∧ (7 : BitVec 16).toNat < 2 ^ w1.maxBits.toNat ∧
      w1.tableAt 7 = .valid 3 3) ∧
    ((3 : BitVec 16).toNat < 2 ^ b4.maxBits.toNat ∧ b4.tableAt 3 = .invalid) := by decide

theorem witness_LookupNeverMasksTheIndex : w1.lifecycle = .ready ∧ w1.maxBits.toNat ≤ 3 ∧
    (8 : BitVec 16).getLsbD 3 = true := by decide

/-- READ_REG: the first unassigned register; MAXBITS outside READY (`inv_w4`). -/
theorem witness_ReadRegReadsOneRegister : 4 ≤ (4 : BitVec 4).toNat ∧ w4.lifecycle ≠ .ready := by decide

theorem witness_BuildOnlyInLoading : w1.lifecycle ≠ .loading ∧ w4.lifecycle ≠ .loading := by decide

theorem witness_OversubscribedBuildFails : (loaded [1, 1, 1]).lifecycle = .loading ∧
    (loaded [1, 1, 1]).nsym.toNat ≤ (loaded [1, 1, 1]).params.nsymMax.toNat ∧
    2 ^ maxLength (loaded [1, 1, 1]).lengths < kraftSum (loaded [1, 1, 1]).lengths := by decide

/-- BuildSucceeds, BuildFillsTheCodesRanges, BuiltTableIsPrefixLookup: complete lengths, KSUM at its bound, and incomplete
ones. -/
theorem witness_BuildSucceeds :
    ([[2, 3, 1, 3], [2, 2, 2]] : List (List Nat)).all (fun ls =>
      (loaded ls).lifecycle = .loading && (loaded ls).nsym.toNat ≤ (loaded ls).params.nsymMax.toNat &&
      (loaded ls).lengths.all (fun l => l ≤ (loaded ls).params.lmax.toNat) &&
      kraftSum (loaded ls).lengths ≤ 2 ^ maxLength (loaded ls).lengths && isNext (exec .build (loaded ls))) = true := by
  decide

theorem witness_BuildFillsTheCodesRanges : exec .build (loaded [2, 3, 1, 3]) = .next w1 := eq_next_after (by decide)

/-- SingleSymbolCodes: the lengths 1 and 2 (W2, B9). -/
theorem witness_SingleSymbolCodes :
    (∀ k, k < (loaded [0, 1]).nsym.toNat → ((loaded [0, 1]).lenAt k).toNat = if k = 1 then 1 else 0) ∧
    (∀ k, k < (loaded [0, 2]).nsym.toNat → ((loaded [0, 2]).lenAt k).toNat = if k = 1 then 2 else 0) := by decide

theorem witness_EmptyInputBuildsOneInvalidSlot :
    (∀ i < (loaded []).nsym.toNat, (loaded []).lenAt i = 0) ∧
    ∀ i < (loaded [0, 0, 0]).nsym.toNat, (loaded [0, 0, 0]).lenAt i = 0 := by decide

theorem witness_PrefixSumsAreBucketStarts : ∀ l ∈ [2, 3, 1, 3], l ≤ 15 := by decide

/-- CodesAreCanonicalAndFreeOfPrefixes, FillRangesAreDisjoint: two codes of one length and codes of two lengths. -/
theorem witness_CodesAreCanonicalAndFreeOfPrefixes : kraftSum [2, 3, 1, 3] ≤ 2 ^ maxLength [2, 3, 1, 3] ∧
    (⟨1, 3, 6⟩ : Code) ∈ canonicalCodes [2, 3, 1, 3] ∧ (⟨3, 3, 7⟩ : Code) ∈ canonicalCodes [2, 3, 1, 3] ∧
    (⟨2, 1, 0⟩ : Code) ∈ canonicalCodes [2, 3, 1, 3] := by decide

/-- LookupDecodesEveryCode (with `inv_w1`): symbol 2's code `0` padded with `11`. -/
theorem witness_LookupDecodesEveryCode : w1.lifecycle = .ready ∧ (⟨2, 1, 0⟩ : Code) ∈ canonicalCodes w1.lengths ∧
    3 < 2 ^ (w1.maxBits.toNat - 1) := by decide

/-- CompleteMeansEverySlotValid (with `inv_w1`, `inv_b4`): a complete and an incomplete READY state. -/
theorem witness_CompleteMeansEverySlotValid : (w1.lifecycle = .ready ∧ w1.complete = true) ∧
    (b4.lifecycle = .ready ∧ b4.complete = false ∧ kraftSum b4.lengths ≤ 3 ∧ 3 < 2 ^ b4.maxBits.toNat ∧
      ¬(degenerate b4.lengths = true ∧ 3 = 1)) := by decide

/-- TableEntryFields (with `inv_w1`). -/
theorem witness_TableEntryFields : w1.lifecycle = .ready ∧ w1.tableAt 7 = .valid 3 3 ∧
    Entry.invalid.bits.extractLsb' 21 1 = 0 := by decide

theorem witness_WorkingValuesFitTheirWidths : (∀ l ∈ [15, 16, 16], l ≤ 16) ∧ [15, 16, 16].length ≤ 65535 ∧
    kraftSum [15, 16, 16] ≤ 2 ^ maxLength [15, 16, 16] := by decide +kernel

/-- LeftRecurrenceDetectsOversubscription: a level below 0. -/
theorem witness_LeftRecurrence : codesLeft [1, 1, 1] 1 < 0 := by decide

/-- RefusedCommandsArePrecise: the lowest and the highest result code of a refusal. -/
theorem witness_RefusedCommandsArePrecise : answers (.readReg 4) w1 0x10000000 = true ∧
    answers (.readLen 4) w1 0x50000000 = true ∧ ((0x50000000 : Word).extractLsb' 28 4).toNat = 5 := by decide

theorem witness_OversubscribedIsTheOnlyErrorWithEffect : answers .build (loaded [1, 1, 1]) 0x60000000 = true ∧
    w4 ≠ { loaded [1, 1, 1] with rsp := w4.rsp } ∧ (0x60000000 : Word).extractLsb' 28 4 = 6 := by decide

theorem witness_ResultCodesOfEachCommand : isNext (exec .build (loaded [1, 1, 1])) = true ∧
    commandWordWf 0x70000000 = false := by decide

theorem witness_ReadsHaveNoSideEffects : isNext (exec (.lookup 5) w1) = true ∧ isNext (exec (.readLen 3) w1) = true ∧
    isNext (exec (.readReg 0) w1) = true := by decide

theorem witness_OnlyClearDiscardsWhatIsHeld : isNext (exec (.pushLen 1) (loaded [2, 3])) = true ∧
    w1.lifecycle ≠ .loading ∧ isNext (exec (.pushLen 1) w1) = true := by decide

theorem witness_LifecycleTransitions : w1.lifecycle ≠ (loaded [2, 3, 1, 3]).lifecycle ∧
    (after (exec .clear w1)).lifecycle ≠ w1.lifecycle := by decide

theorem witness_ReachableStates : Config.default.wf = true ∧ (Config.mk 65535 16).wf = true ∧ (Config.mk 1 1).wf = true := by
  decide

theorem witness_StepKeepsTheInvariant : Inv (offered w1 0x10000000) ∧ isNext (step (offered w1 0x10000000)) = true :=
  ⟨by constructor <;> decide, by decide⟩

/-- UnreadableEntriesAreUnobservable: two states that differ in LEN above NSYM and in TABLE outside READY. -/
theorem witness_UnreadableEntriesAreUnobservable :
    SameToHost (loaded [1, 1]) { loaded [1, 1] with len := (loaded [1, 1, 3]).len, table := w1.table } ∧
    (loaded [1, 1]).len ≠ (loaded [1, 1, 3]).len := by
  refine ⟨?_, by decide⟩
  constructor <;> decide

theorem witness_PushesLoadTheLengthArray : State.reset.lifecycle = .loading ∧ State.reset.nsym = 0 ∧
    ([2, 3, 1, 3] : List (BitVec 5)).length ≤ State.reset.params.nsymMax.toNat ∧
    ∀ l ∈ ([2, 3, 1, 15] : List (BitVec 5)), l.toNat ≤ State.reset.params.lmax.toNat := by decide

/-- BuildTableRealisesOneBuild: lengths that are over-subscribed and lengths that are not. -/
theorem witness_BuildTableRealisesOneBuild : w1.params.wf = true ∧ 2 ^ maxLength [1, 1, 1] < kraftSum [1, 1, 1] ∧
    kraftSum [2, 3, 1, 3] ≤ 2 ^ maxLength [2, 3, 1, 3] := by decide

/-- PortsRealiseCommandSequences (with `inv_w1`): two commands through the ports, each response taken (W1, C1). -/
theorem witness_PortsRealiseCommandSequences :
    (after (core.run 4 { w1 with rsp := none, edges := [Instr.lookup 5, .clear].flatMap fun i =>
      [⟨false, some (encode i), false⟩, ⟨false, none, true⟩] })).sent = [0x00220000, 0] := by decide

end Sys2Proof.Tests
end

section
/-! SUPPORT. What BUILD computes from a length array: the two Kraft sums agree, the fan-out and DG leave the table
`tableSpec` defines, and what its valid entries hold. -/

namespace Sys2Proof.Machine

/-! ### ORD as a rearrangement of the coded symbols (R70) and the two Kraft sums (R71) -/

/-- ORD is strictly ordered by (length, symbol index). -/
theorem ord_pairwise (ls : List Nat) : (ord ls).Pairwise fun a b =>
    ls.getD a 0 < ls.getD b 0 ∨ (ls.getD a 0 = ls.getD b 0 ∧ a < b) := by
  rw [ord, List.pairwise_flatMap]
  constructor
  · intro l _
    refine (List.pairwise_lt_range.filter _).imp_of_mem fun {a b} ha hb hab => .inr ⟨?_, hab⟩
    rw [(mem_symbolsOfLength.1 ha).2, (mem_symbolsOfLength.1 hb).2]
  · refine List.pairwise_lt_range.imp fun {l k} hlk a ha b hb => .inl ?_
    rw [(mem_symbolsOfLength.1 ha).2, (mem_symbolsOfLength.1 hb).2]
    omega

theorem ord_nodup (ls : List Nat) : (ord ls).Nodup :=
  (ord_pairwise ls).imp fun h hab => by subst hab; omega

/-- A length array lists what its symbols `0, 1, …` have. -/
theorem map_getD_range_length (ls : List Nat) : (List.range ls.length).map (ls.getD · 0) = ls :=
  List.ext_getElem (by simp) fun i _ h => by simp [h]

/-- The lengths along ORD are the nonzero lengths, rearranged. -/
theorem map_getD_ord_perm (ls : List Nat) : ((ord ls).map (ls.getD · 0)).Perm (ls.filter (0 < ·)) := by
  have hord : (ord ls).Perm ((List.range ls.length).filter fun s => 0 < ls.getD s 0) := by
    refine (List.perm_ext_iff_of_nodup (ord_nodup ls) (List.nodup_range.filter _)).2 fun s => ?_
    rw [mem_ord, List.mem_filter, List.mem_range, decide_eq_true_eq]
  have hfilter : ls.filter (0 < ·) =
      ((List.range ls.length).filter fun s => 0 < ls.getD s 0).map (ls.getD · 0) := by
    conv_lhs => rw [← map_getD_range_length ls, List.filter_map]
    rfl
  rw [hfilter]
  exact hord.map _

/-- The slots of all the fill ranges are KSUM, summed over the symbols. -/
theorem rangeSum_orderedCodes (ls : List Nat) : rangeSum (maxLength ls) (orderedCodes ls) = kraftSum ls := by
  have hperm := (map_getD_ord_perm ls).map fun l => 2 ^ (maxLength ls - l)
  rw [List.map_map] at hperm
  rw [rangeSum, orderedCodes, List.map_map, kraftSum]
  exact hperm.sum_nat

theorem length_symbolsOfLength (ls : List Nat) (l : Nat) : (symbolsOfLength ls l).length = hist ls l := by
  have hcount : hist ls l = ((List.range ls.length).map (ls.getD · 0)).count l := by
    rw [map_getD_range_length, hist]
  rw [hcount, List.count_eq_countP, List.countP_map, List.countP_eq_length_filter, symbolsOfLength]
  rfl

/-- The slots of all the fill ranges are KSUM, summed over the histogram as BUILD does it. -/
theorem rangeSum_orderedCodes_eq_ksum (ls : List Nat) :
    rangeSum (maxLength ls) (orderedCodes ls) = ksum ls := by
  rw [rangeSum, orderedCodes, ord, ksum, List.map_map, List.map_flatMap, List.flatMap, List.sum_flatten, List.map_map]
  congr 1
  refine List.map_congr_left fun l _ => ?_
  have hconst : ∀ s ∈ symbolsOfLength ls (l + 1),
      2 ^ (maxLength ls - ls.getD s 0) = 2 ^ (maxLength ls - (l + 1)) := fun s hs => by
    rw [(mem_symbolsOfLength.1 hs).2]
  simp only [Function.comp_apply, Function.comp_def]
  rw [List.map_congr_left hconst, List.map_const', List.sum_replicate, length_symbolsOfLength, Nat.shiftLeft_eq,
    smul_eq_mul]

theorem ksum_eq_kraftSum (ls : List Nat) : ksum ls = kraftSum ls := by
  rw [← rangeSum_orderedCodes_eq_ksum, rangeSum_orderedCodes]

theorem overSubscribed_iff (ls : List Nat) :
    overSubscribed (ksum ls) (maxLength ls) = true ↔ 2 ^ maxLength ls < kraftSum ls := by
  rw [overSubscribed, decide_eq_true_eq, ksum_eq_kraftSum, Nat.one_shiftLeft]

theorem completeFlag_eq (ls : List Nat) :
    completeFlag (ksum ls) (maxLength ls) = decide (kraftSum ls = 2 ^ maxLength ls) := by
  rw [completeFlag, ksum_eq_kraftSum, Nat.one_shiftLeft]

/-! ### The degenerate code (R12, R77) -/

/-- The degenerate code seen along ORD: one symbol, of length 1. -/
theorem degenerate_iff {ls : List Nat} : degenerate ls = true ↔ ∃ s, ord ls = [s] ∧ ls.getD s 0 = 1 := by
  have hperm := map_getD_ord_perm ls
  rw [degenerate, decide_eq_true_eq]
  constructor
  · intro h
    rw [h, List.perm_singleton, List.map_eq_singleton_iff] at hperm
    exact hperm
  · rintro ⟨s, hs, hl⟩
    rw [hs, List.map_singleton, hl] at hperm
    exact List.perm_singleton.1 hperm.symm

/-- With one coded symbol, the largest length is that symbol's. -/
theorem maxLength_of_ord_singleton {ls : List Nat} {s : Nat} (h : ord ls = [s]) : maxLength ls = ls.getD s 0 := by
  refine Nat.le_antisymm (maxLength_le fun l hl => ?_) (getD_le_maxLength ls s)
  obtain ⟨i, hi, rfl⟩ := List.mem_iff_getElem.1 hl
  rw [← List.getD_eq_getElem ls 0 hi]
  rcases Nat.eq_zero_or_pos (ls.getD i 0) with h0 | hpos
  · omega
  · have hmem : i ∈ ord ls := mem_ord.2 ⟨hi, hpos⟩
    rw [h, List.mem_singleton] at hmem
    rw [hmem]

/-- The one code of a degenerate code is the bit 0, and covers slot 0 alone. -/
theorem canonicalCodes_of_degenerate {ls : List Nat} {s : Nat} (h : ord ls = [s]) (hl : ls.getD s 0 = 1) :
    canonicalCodes ls = [⟨s, 1, 0⟩] := by
  simp [canonicalCodes, orderedCodes, h, assignCodes, hl, -List.getD_eq_getElem?_getD]

/-- DG writes slot 1 exactly for a degenerate code. -/
theorem read_fillDegenerate (ls : List Nat) (t : Memory Entry) (j : Nat) :
    Memory.read unwrittenEntry (fillDegenerate (maxLength ls) (ord ls) t) j =
      if degenerate ls = true ∧ j = 1 then codeEntry ((ord ls).headD 0) 1 else Memory.read unwrittenEntry t j := by
  unfold fillDegenerate
  split
  case h_1 s hs =>
    have hdeg : degenerate ls = true ↔ maxLength ls = 1 := by
      rw [degenerate_iff, maxLength_of_ord_singleton hs]
      simp [hs]
    by_cases hm : maxLength ls = 1
    · simp [hm, hdeg, hs, Memory.read_write]
    · simp [hm, hdeg]
  case h_2 hne =>
    have hdeg : degenerate ls ≠ true := fun hd => by
      obtain ⟨s, hs, -⟩ := degenerate_iff.1 hd
      exact hne s hs
    simp [hdeg]

/-! ### What TABLE holds after BUILD (R74 to R77) -/

/-- The fill ranges of two codes do not meet. -/
theorem code_ranges_disjoint {ls : List Nat} {a b : Code} (ha : a ∈ canonicalCodes ls) (hb : b ∈ canonicalCodes ls)
    (hne : a ≠ b) : a.hi (maxLength ls) ≤ b.lo (maxLength ls) ∨ b.hi (maxLength ls) ≤ a.lo (maxLength ls) := by
  have hsymm : Std.Symm fun a b : Code =>
      a.hi (maxLength ls) ≤ b.lo (maxLength ls) ∨ b.hi (maxLength ls) ≤ a.lo (maxLength ls) := ⟨fun _ _ h => h.symm⟩
  have hpair : (canonicalCodes ls).Pairwise fun a b =>
      a.hi (maxLength ls) ≤ b.lo (maxLength ls) ∨ b.hi (maxLength ls) ≤ a.lo (maxLength ls) :=
    (assignCodes_disjoint (orderedCodes_walkable ls)).imp .inl
  exact hpair.forall ha hb hne

/-- A slot begins with at most one code. -/
theorem code_covers_unique {ls : List Nat} {j : Nat} {a b : Code} (ha : a ∈ canonicalCodes ls)
    (hb : b ∈ canonicalCodes ls) (haj : a.covers (maxLength ls) j = true) (hbj : b.covers (maxLength ls) j = true) :
    a = b := by
  by_contra hne
  rw [covers_iff] at haj hbj
  rcases code_ranges_disjoint ha hb hne with h | h <;> omega

/-- When the Kraft check passes, every code's range lies below `2^M`. -/
theorem code_hi_le {ls : List Nat} (hk : kraftSum ls ≤ 2 ^ maxLength ls) {c : Code} (hc : c ∈ canonicalCodes ls) :
    c.hi (maxLength ls) ≤ 2 ^ maxLength ls := by
  obtain ⟨-, hhi, -⟩ := assignCodes_bounds (orderedCodes_walkable ls) c hc
  rw [rangeSum_orderedCodes, Nat.zero_mul, Nat.zero_add] at hhi
  exact hhi.trans hk

theorem code_lo_le_hi {ls : List Nat} {c : Code} (hc : c ∈ canonicalCodes ls) :
    c.lo (maxLength ls) ≤ c.hi (maxLength ls) := by
  obtain ⟨-, -, hhi⟩ := assignCodes_bounds (next := 0) (orderedCodes_walkable ls) c hc
  exact hhi ▸ Nat.le_add_right _ _

/-- The fan-out gives a slot the entry of the code it begins with. -/
theorem read_fanOut_of_find?_eq_some {ls : List Nat} {j : Nat} {c : Code} (t : Memory Entry)
    (h : (canonicalCodes ls).find? (fun c => c.covers (maxLength ls) j) = some c) :
    Memory.read unwrittenEntry (fanOut (maxLength ls) (canonicalCodes ls) t) j = codeEntry c.sym c.len := by
  have hc := List.mem_of_find?_eq_some h
  have hcov : c.covers (maxLength ls) j = true := by simpa using List.find?_some h
  have hsame : ∀ c' ∈ canonicalCodes ls, c'.lo (maxLength ls) ≤ j → j < c'.hi (maxLength ls) →
      codeEntry c'.sym c'.len = codeEntry c.sym c.len := fun c' hc' hlo hhi => by
    rw [code_covers_unique hc' hc (covers_iff.2 ⟨hlo, hhi⟩) hcov]
  rw [read_fanOut _ _ _ _ _ hsame, if_pos ⟨c, hc, covers_iff.1 hcov⟩]

/-- The fan-out leaves a slot that begins with no code as it was. -/
theorem read_fanOut_of_find?_eq_none {ls : List Nat} {j : Nat} (t : Memory Entry)
    (h : (canonicalCodes ls).find? (fun c => c.covers (maxLength ls) j) = none) :
    Memory.read unwrittenEntry (fanOut (maxLength ls) (canonicalCodes ls) t) j = Memory.read unwrittenEntry t j := by
  have hnone : ∀ c ∈ canonicalCodes ls, ¬(c.lo (maxLength ls) ≤ j ∧ j < c.hi (maxLength ls)) := fun c hc hr =>
    List.find?_eq_none.1 h c hc (covers_iff.2 hr)
  rw [read_fanOut _ _ _ _ .invalid fun c hc hlo hhi => absurd ⟨hlo, hhi⟩ (hnone c hc), if_neg]
  rintro ⟨c, hc, hr⟩
  exact hnone c hc hr

/-- Slot 1 begins with no code of a degenerate table. -/
theorem find?_covers_of_degenerate {ls : List Nat} (h : degenerate ls = true) :
    (canonicalCodes ls).find? (fun c => c.covers (maxLength ls) 1) = none := by
  obtain ⟨s, hs, hl⟩ := degenerate_iff.1 h
  rw [canonicalCodes_of_degenerate hs hl, maxLength_of_ord_singleton hs, hl]
  rfl

/-- After BUILD each slot of the table holds what the lengths define (R75, R76, R77). -/
theorem read_expandTable {ls : List Nat} {j : Nat} (t : Memory Entry) (hj : j < 2 ^ maxLength ls) :
    Memory.read unwrittenEntry (expandTable ls t) j = tableSpec ls j := by
  have hcleared : Memory.read unwrittenEntry (Memory.fill unwrittenEntry t 0 (1 <<< maxLength ls) .invalid) j = .invalid := by
    rw [Memory.read_fill, Nat.one_shiftLeft, if_pos ⟨Nat.zero_le j, hj⟩]
  rw [expandTable, read_fillDegenerate, tableSpec]
  cases hfind : (canonicalCodes ls).find? (fun c => c.covers (maxLength ls) j) with
  | some c =>
    have hd : ¬(degenerate ls = true ∧ j = 1) := by
      rintro ⟨hdeg, rfl⟩
      rw [find?_covers_of_degenerate hdeg] at hfind
      cases hfind
    rw [if_neg hd, read_fanOut_of_find?_eq_some _ hfind]
  | none =>
    rw [read_fanOut_of_find?_eq_none _ hfind, hcleared]
    simp only [Bool.and_eq_true, decide_eq_true_eq]

/-- BUILD keeps the canonical form of TABLE when the Kraft check passes and TABLE has the slots. -/
theorem wf_expandTable {ls : List Nat} {size : Nat} {t : Memory Entry} (h : Memory.wf unwrittenEntry size t = true)
    (hk : kraftSum ls ≤ 2 ^ maxLength ls) (hsize : 2 ^ maxLength ls ≤ size) :
    Memory.wf unwrittenEntry size (expandTable ls t) = true := by
  have hfan : Memory.wf unwrittenEntry size
      (fanOut (maxLength ls) (canonicalCodes ls) (Memory.fill unwrittenEntry t 0 (1 <<< maxLength ls) .invalid)) = true := by
    refine wf_fanOut (Memory.wf_fill _ h (Nat.zero_le _) (by rwa [Nat.one_shiftLeft])) fun c hc => ?_
    exact ⟨code_lo_le_hi hc, (code_hi_le hk hc).trans hsize⟩
  simp only [expandTable, fillDegenerate]
  split
  · split
    · next hm =>
      rw [hm] at hsize
      exact Memory.wf_write _ hfan (by omega)
    · exact hfan
  · exact hfan

/-- The table the lengths define holds, in each slot, INVALID or a coded symbol with its own length. -/
theorem tableSpec_cases (ls : List Nat) (j : Nat) :
    tableSpec ls j = .invalid ∨ ∃ s ∈ ord ls, tableSpec ls j = codeEntry s (ls.getD s 0) := by
  unfold tableSpec
  split
  case h_1 c hfind =>
    obtain ⟨hsym, hlen⟩ := mem_canonicalCodes (List.mem_of_find?_eq_some hfind)
    exact .inr ⟨c.sym, hsym, by rw [hlen]⟩
  case h_2 =>
    split
    · next hd =>
      rw [Bool.and_eq_true] at hd
      obtain ⟨s, hs, hl⟩ := degenerate_iff.1 hd.1
      exact .inr ⟨s, by simp [hs], by rw [hl, hs, List.headD_cons]⟩
    · exact .inl rfl

/-- A valid entry of the table the lengths define has a length from 1 to `M` and names a symbol of the input (R23). -/
theorem tableSpec_valid_bounds {ls : List Nat} {j : Nat} {sym : BitVec 16} {len : BitVec 5} (hM : maxLength ls < 2 ^ 5)
    (hn : ls.length < 2 ^ 16) (h : tableSpec ls j = .valid sym len) :
    1 ≤ len.toNat ∧ len.toNat ≤ maxLength ls ∧ sym.toNat < ls.length := by
  obtain hinv | ⟨s, hs, he⟩ := tableSpec_cases ls j
  · rw [hinv] at h
    cases h
  · obtain ⟨hlt, hpos⟩ := mem_ord.1 hs
    have hle := getD_le_maxLength ls s
    rw [he, codeEntry, Entry.valid.injEq] at h
    obtain ⟨rfl, rfl⟩ := h
    rw [BitVec.toNat_ofNat, BitVec.toNat_ofNat, Nat.mod_eq_of_lt (by omega), Nat.mod_eq_of_lt (by omega)]
    exact ⟨hpos, hle, hlt⟩

end Sys2Proof.Machine
end

section
/-! SUPPORT. What each command answers in each of its cases, what every step and every run keeps, and the bit fields of
PARAMS and of a table entry. -/

namespace Sys2Proof.Machine

/-! ### What each command answers in each of its cases -/

theorem execReadLen_of_nsym_le {s : State} {idx : BitVec 16} (h : s.nsym.toNat ≤ idx.toNat) :
    execReadLen idx s = .next (s.setRsp (some 0x50000000)) := by
  rw [execReadLen, if_pos (BitVec.le_def.2 h), raise_eq, responseWord_indexRange]

theorem execReadLen_of_lt_nsym {s : State} {idx : BitVec 16} (hn : s.nsym.toNat ≤ s.lenSize)
    (h : idx.toNat < s.nsym.toNat) :
    execReadLen idx s = .next (respond .ok (zext28 (s.lenAt idx.toNat)) s) := by
  have hread : s.readLen idx.toNat = some (s.lenAt idx.toNat) := State.readLen_eq_some.2 ⟨by omega, rfl⟩
  rw [execReadLen, if_neg (BitVec.not_le.2 (BitVec.lt_def.2 h)), hread]

theorem execLookup_of_not_ready {s : State} (idx : BitVec 16) (h : s.lifecycle ≠ .ready) :
    execLookup idx s = .next (s.setRsp (some 0x20000000)) := by
  rw [execLookup, if_pos h, raise_eq, responseWord_badState]

theorem State.inTable_iff {s : State} {idx : BitVec 16} : s.inTable idx = true ↔ idx.toNat < 2 ^ s.maxBits.toNat := by
  rw [State.inTable, decide_eq_true_eq, Nat.one_shiftLeft]

theorem execLookup_of_maxBits_le {s : State} {idx : BitVec 16} (hl : s.lifecycle = .ready)
    (h : 2 ^ s.maxBits.toNat ≤ idx.toNat) : execLookup idx s = .next (s.setRsp (some 0x50000000)) := by
  have hout : (!s.inTable idx) = true := by
    rw [Bool.not_eq_true', ← Bool.not_eq_true, State.inTable_iff]
    omega
  rw [execLookup, if_neg (not_not.2 hl), if_pos hout, raise_eq, responseWord_indexRange]

theorem execLookup_of_inTable {s : State} {idx : BitVec 16} (hl : s.lifecycle = .ready)
    (hm : s.maxBits.toNat ≤ s.params.lmax.toNat) (h : idx.toNat < 2 ^ s.maxBits.toNat) :
    execLookup idx s = .next (respond .ok (zext28 (s.tableAt idx.toNat).bits) s) := by
  have hread : s.readTable idx.toNat = some (s.tableAt idx.toNat) :=
    State.readTable_eq_some.2 ⟨h.trans_le (Nat.pow_le_pow_right (by omega) hm), rfl⟩
  rw [execLookup, if_neg (not_not.2 hl), State.inTable_iff.2 h, hread]
  rfl

theorem execPushLen_of_not_loading {s : State} (clen : BitVec 5) (h : s.lifecycle ≠ .loading) :
    execPushLen clen s = .next (s.setRsp (some 0x20000000)) := by
  rw [execPushLen, if_pos h, raise_eq, responseWord_badState]

theorem execPushLen_of_full {s : State} (clen : BitVec 5) (hl : s.lifecycle = .loading)
    (h : s.nsym = s.params.nsymMax) : execPushLen clen s = .next (s.setRsp (some 0x30000000)) := by
  rw [execPushLen, if_neg (not_not.2 hl), if_pos h, raise_eq, responseWord_capacity]

theorem execPushLen_of_lmax_lt {s : State} {clen : BitVec 5} (hl : s.lifecycle = .loading)
    (hn : s.nsym ≠ s.params.nsymMax) (h : s.params.lmax < clen) :
    execPushLen clen s = .next (s.setRsp (some 0x40000000)) := by
  rw [execPushLen, if_neg (not_not.2 hl), if_neg hn, if_pos h, raise_eq, responseWord_lengthRange]

theorem execPushLen_of_room {s : State} {clen : BitVec 5} (hl : s.lifecycle = .loading)
    (hn : s.nsym.toNat < s.lenSize) (h : clen ≤ s.params.lmax) :
    execPushLen clen s = .next (respond .ok (zext28 (s.nsym + 1))
      ((s.setLen (Memory.write unwrittenLen s.len s.nsym.toNat clen)).setNsym (s.nsym + 1))) := by
  have hne : s.nsym ≠ s.params.nsymMax := fun he => by
    rw [he, State.lenSize] at hn
    exact absurd hn (lt_irrefl _)
  rw [execPushLen, if_neg (not_not.2 hl), if_neg hne, if_neg (BitVec.not_lt.2 h),
    State.writeLen_eq_some.2 ⟨hn, rfl⟩]

theorem execBuild_of_not_loading {s : State} (h : s.lifecycle ≠ .loading) :
    execBuild s = .next (s.setRsp (some 0x20000000)) := by
  rw [execBuild, if_pos h, raise_eq, responseWord_badState]

theorem execBuild_of_oversubscribed {s : State} (hl : s.lifecycle = .loading) (hn : s.nsym.toNat ≤ s.lenSize)
    (hk : 2 ^ maxLength s.lengths < kraftSum s.lengths) :
    execBuild s = .next ((s.endBuild .failed 0 false).setRsp (some 0x60000000)) := by
  rw [execBuild, if_neg (not_not.2 hl), State.readLengths_eq_some.2 ⟨hn, rfl⟩]
  simp only
  rw [buildFrom, if_pos ((overSubscribed_iff _).2 hk), respond_eq, responseWord_oversubscribed]

/-- The state in which a successful BUILD leaves `s`, before it answers (R78). -/
def State.built (s : State) : State :=
  (s.setTable (expandTable s.lengths s.table)).endBuild .ready (BitVec.ofNat 5 (maxLength s.lengths))
    (completeFlag (ksum s.lengths) (maxLength s.lengths))

theorem execBuild_of_kraft {s : State} (hl : s.lifecycle = .loading) (hn : s.nsym.toNat ≤ s.lenSize)
    (hle : ∀ l ∈ s.lengths, l ≤ s.params.lmax.toNat) (hk : kraftSum s.lengths ≤ 2 ^ maxLength s.lengths) :
    execBuild s = .next (respond .ok (buildData s.built.complete s.built.maxBits) s.built) := by
  have hover : ¬overSubscribed (ksum s.lengths) (maxLength s.lengths) = true := by
    rw [overSubscribed_iff]
    omega
  have hsize : 2 ^ maxLength s.lengths ≤ s.tableSize := Nat.pow_le_pow_right (by omega) (maxLength_le hle)
  rw [execBuild, if_neg (not_not.2 hl), State.readLengths_eq_some.2 ⟨hn, rfl⟩]
  simp only
  rw [buildFrom, if_neg hover, State.writeTable_eq_some.2 ⟨hsize, rfl⟩]
  rfl

/-! ### What every step keeps -/

/-- An accepted word is answered ILLEGAL, or its command is executed. -/
theorem runCommandWord_cases (w : Word) (s : State) :
    ((∃ e, decode w = .error e) ∧ runCommandWord w s = .next (respond .illegal 0 s)) ∨
    ∃ i, decode w = .ok i ∧ runCommandWord w s = exec i s := by
  unfold runCommandWord
  cases hd : decode w with
  | error e => exact .inl ⟨⟨e, rfl⟩, rfl⟩
  | ok i => exact .inr ⟨i, rfl, rfl⟩

/-- What the port's moves and every command keep, every step keeps. -/
theorem step_preserves {P : State → Prop} (hedges : ∀ s es, P s → P (s.setEdges es)) (hreset : ∀ s, P s → P s.applyReset)
    (htake : ∀ s w, P s → P (s.transferResponse w)) (hillegal : ∀ s, P s → P (respond .illegal 0 s))
    (hexec : ∀ i s t, P s → exec i s = .next t → P t) {s t : State} (hs : P s) (h : step s = .next t) : P t := by
  obtain ⟨-, hst⟩ | ⟨e, rest, -, ⟨-, hst⟩ | ⟨w, -, -, -, hst⟩ | ⟨w, -, -, -, hst⟩ | ⟨-, -, -, hst⟩⟩ := step_cases s
  · exact Host.Outcome.next.inj (hst.symm.trans h) ▸ hs
  · exact Host.Outcome.next.inj (hst.symm.trans h) ▸ hreset _ (hedges _ _ hs)
  · exact Host.Outcome.next.inj (hst.symm.trans h) ▸ htake _ _ (hedges _ _ hs)
  · obtain ⟨-, hw⟩ | ⟨i, -, hw⟩ := runCommandWord_cases w (s.setEdges rest)
    · exact Host.Outcome.next.inj ((hst.trans hw).symm.trans h) ▸ hillegal _ (hedges _ _ hs)
    · exact hexec _ _ _ (hedges _ _ hs) ((hst.trans hw).symm.trans h)
  · exact Host.Outcome.next.inj (hst.symm.trans h) ▸ hedges _ _ hs

/-- A step stops only where a command it executes stops. -/
theorem step_answers_of_exec_answers {s : State} (hexec : ∀ i rest, ∃ t, exec i (s.setEdges rest) = .next t) :
    ∃ t, step s = .next t := by
  obtain ⟨-, hst⟩ | ⟨e, rest, -, ⟨-, hst⟩ | ⟨w, -, -, -, hst⟩ | ⟨w, -, -, -, hst⟩ | ⟨-, -, -, hst⟩⟩ := step_cases s
  · exact ⟨_, hst⟩
  · exact ⟨_, hst⟩
  · exact ⟨_, hst⟩
  · obtain ⟨-, hw⟩ | ⟨i, -, hw⟩ := runCommandWord_cases w (s.setEdges rest)
    · exact ⟨_, hst.trans hw⟩
    · obtain ⟨t, ht⟩ := hexec i rest
      exact ⟨t, hst.trans (hw.trans ht)⟩
  · exact ⟨_, hst⟩

/-- A run of one step more takes the step first. -/
theorem run_succ_of_step {s t : State} (h : step s = .next t) (n : Nat) : core.run (n + 1) s = core.run n t := by
  have hcore : core.step s = .next t := h
  simp only [Host.Core.run, hcore]

/-- What every step keeps, in states whose steps answer, holds after any number of steps. -/
theorem run_keeps {P : State → Prop} (hanswers : ∀ s, P s → ∃ t, step s = .next t)
    (hkeeps : ∀ s t, P s → step s = .next t → P t) (n : Nat) :
    ∀ {s : State}, P s → ∃ t, core.run n s = .next t ∧ P t := by
  induction n with
  | zero => exact fun {s} hs => ⟨s, rfl, hs⟩
  | succ n ih =>
    intro s hs
    obtain ⟨u, hu⟩ := hanswers s hs
    rw [run_succ_of_step hu]
    exact ih (hkeeps s u hs hu)

/-! ### PARAMS (R20) -/

theorem exec_params {i : Instr} {s t : State} (h : exec i s = .next t) : t.params = s.params := by
  cases i with
  | clear =>
    cases h
    rfl
  | pushLen clen =>
    obtain ⟨-, rfl⟩ | ⟨-, -, rfl⟩ | ⟨-, -, -, rfl⟩ | ⟨-, -, -, rfl⟩ := execPushLen_cases h <;> rfl
  | build => obtain ⟨-, rfl⟩ | ⟨-, -, -, rfl⟩ | ⟨-, -, -, -, rfl⟩ := execBuild_cases h <;> rfl
  | lookup idx => obtain ⟨-, rfl⟩ | ⟨-, -, rfl⟩ | ⟨-, -, -, rfl⟩ := execLookup_cases h <;> rfl
  | readLen idx => obtain ⟨-, rfl⟩ | ⟨-, -, rfl⟩ := execReadLen_cases h <;> rfl
  | readReg reg => obtain ⟨-, rfl⟩ | ⟨r, -, rfl⟩ := execReadReg_cases h <;> rfl

theorem step_params {s t : State} (h : step s = .next t) : t.params = s.params :=
  step_preserves (P := fun u => u.params = s.params) (fun _ _ hu => hu) (fun _ hu => hu) (fun _ _ hu => hu)
    (fun _ hu => hu) (fun _ _ _ hu hexec => (exec_params hexec).trans hu) rfl h

/-! ### The bit fields of PARAMS and of a table entry (R20, R23) -/

/-- A field within the value reads the same after zero extension. -/
theorem extractLsb'_zext28 {n : Nat} (v : BitVec n) {start len : Nat} (hlen : start + len ≤ 28) :
    (zext28 v).extractLsb' start len = v.extractLsb' start len := by
  ext i hi
  simp [zext28, show start + i < 28 by omega]

theorem paramsBits_nsymMax (c : Config) : (paramsBits c).extractLsb' 0 16 = c.nsymMax :=
  BitVec.extractLsb'_append_eq_right

theorem paramsBits_lmax (c : Config) : (paramsBits c).extractLsb' 16 5 = c.lmax :=
  BitVec.extractLsb'_append_eq_left

theorem paramsBits_above_lmax (c : Config) : (paramsBits c).extractLsb' 21 7 = 0 := by
  ext i hi
  simp

/-- The 22-bit pattern of a valid entry as a number. -/
theorem Entry.toNat_bits_valid (sym : BitVec 16) (len : BitVec 5) :
    (Entry.valid sym len).bits.toNat = 2 ^ 21 + len.toNat * 2 ^ 16 + sym.toNat := by
  have hlen : (1#1 ++ len).toNat = 2 ^ 5 + len.toNat := by
    rw [BitVec.toNat_append, ← Nat.shiftLeft_add_eq_or_of_lt len.isLt]
    rfl
  have hbits : (Entry.valid sym len).bits.toNat = (1#1 ++ len).toNat <<< 16 + sym.toNat := by
    rw [Nat.shiftLeft_add_eq_or_of_lt sym.isLt]
    exact BitVec.toNat_append _ _
  rw [hbits, hlen, Nat.shiftLeft_eq]
  omega

theorem Entry.bits_valid_fields (sym : BitVec 16) (len : BitVec 5) :
    (Entry.valid sym len).bits.extractLsb' 21 1 = 1 ∧ (Entry.valid sym len).bits.extractLsb' 16 5 = len ∧
    (Entry.valid sym len).bits.extractLsb' 0 16 = sym := by
  have hone : (1 : BitVec 1).toNat = 1 := rfl
  have hlen := len.isLt
  have hsym := sym.isLt
  refine ⟨?_, ?_, ?_⟩ <;> apply BitVec.eq_of_toNat_eq <;>
    rw [BitVec.extractLsb'_toNat, Entry.toNat_bits_valid, Nat.shiftRight_eq_div_pow] <;> omega

theorem Entry.bits_eq_zero_of_valid_eq_zero {e : Entry} (h : e.bits.extractLsb' 21 1 = 0) : e.bits = 0 := by
  cases e with
  | invalid => rfl
  | valid sym len =>
    rw [(Entry.bits_valid_fields sym len).1] at h
    cases h

end Sys2Proof.Machine
end

section
/-! The invariant (R27) holds at reset, every command and every step keep it, and from it no step stops; the obligations
about the state follow. -/

namespace Sys2Proof.Machine

/-! ### Responses -/

/-- A response of a refusal carries no data, and every response is well formed (R47, R48). -/
theorem responseWf_responseWord {rc : ResultCode} {d : Data} (h : rc = .ok ∨ d = 0) :
    responseWf (responseWord rc d) = true := by
  have hcode : rc.code ≤ 6 := by cases rc <;> decide
  have hdata : rc.code = 0 ∨ d = 0 := h.imp_left fun hok => by rw [hok]; rfl
  simpa [responseWf] using And.intro hcode hdata

/-! ### The invariant is kept by the shared operations -/

theorem Inv.setRsp {s : State} (hs : Inv s) {r : Option Word} (hr : r.all responseWf = true) : Inv (s.setRsp r) :=
  { hs with response_wf := hr }

theorem Inv.answered {s : State} (hs : Inv s) {rc : ResultCode} {d : Data} (h : rc = .ok ∨ d = 0) :
    Inv (respond rc d s) :=
  hs.setRsp (responseWf_responseWord h)

theorem Inv.setEdges {s : State} (hs : Inv s) (es : List HostEdge) : Inv (s.setEdges es) := { hs with }

theorem Inv.setSent {s : State} (hs : Inv s) (ws : List Word) : Inv (s.setSent ws) := { hs with }

theorem Inv.transferResponse {s : State} (hs : Inv s) (w : Word) : Inv (s.transferResponse w) :=
  (hs.setSent _).setRsp rfl

theorem inv_resetWith {c : Config} (hc : c.wf = true) : Inv (State.resetWith c) where
  config := hc
  nsym_le := Nat.zero_le _
  length_le := nofun
  no_table _ := ⟨rfl, rfl⟩
  ready_maxBits := nofun
  ready_kraft := nofun
  ready_complete := nofun
  ready_table := nofun
  failed_kraft := nofun
  len_wf := rfl
  table_wf := rfl
  response_wf := rfl

theorem Inv.applyReset {s : State} (hs : Inv s) : Inv s.applyReset :=
  ((inv_resetWith hs.config).setEdges _).setSent _

theorem Inv.lmax_le {s : State} (hs : Inv s) : s.params.lmax.toNat ≤ 16 := by
  have hc := hs.config
  simp only [Config.wf, Config.lmaxLegal, Bool.and_eq_true, decide_eq_true_eq] at hc
  exact hc.2.2

theorem Inv.maxLength_le_lmax {s : State} (hs : Inv s) : maxLength s.lengths ≤ s.params.lmax.toNat :=
  maxLength_le hs.length_le

/-- MAXBITS of the built table is `M`: 5 bits hold every length (R19). -/
theorem Inv.toNat_ofNat_maxLength {s : State} (hs : Inv s) :
    (BitVec.ofNat 5 (maxLength s.lengths)).toNat = maxLength s.lengths := by
  have hM := hs.maxLength_le_lmax
  have hlmax := hs.lmax_le
  rw [BitVec.toNat_ofNat, Nat.mod_eq_of_lt (by omega)]

/-! ### The invariant is kept by every command -/

theorem Inv.cleared {s : State} (hs : Inv s) :
    Inv ((((s.setLifecycle .loading).setNsym 0).setMaxBits 0).setComplete false) :=
  { inv_resetWith hs.config with
    ready_table := nofun
    len_wf := hs.len_wf
    table_wf := hs.table_wf
    response_wf := hs.response_wf }

theorem Inv.pushed {s : State} (hs : Inv s) {clen : BitVec 5} (hl : s.lifecycle = .loading)
    (hn : s.nsym.toNat < s.lenSize) (hc : clen ≤ s.params.lmax) :
    Inv ((s.setLen (Memory.write unwrittenLen s.len s.nsym.toNat clen)).setNsym (s.nsym + 1)) := by
  have hlt : s.nsym.toNat + 1 < 2 ^ 16 := by
    have hmax := s.params.nsymMax.isLt
    rw [State.lenSize] at hn
    omega
  have hnsym : (s.nsym + 1).toNat = s.nsym.toNat + 1 := by bv_omega
  have hready : s.lifecycle ≠ .ready := by rw [hl]; decide
  have hfailed : s.lifecycle ≠ .failed := by rw [hl]; decide
  exact
  { hs with
    nsym_le := hnsym.trans_le hn
    length_le := by
      rw [State.lengths_push s clen hlt, List.forall_mem_append, List.forall_mem_singleton]
      exact ⟨hs.length_le, BitVec.le_def.1 hc⟩
    ready_maxBits := fun h => absurd h hready
    ready_kraft := fun h => absurd h hready
    ready_complete := fun h => absurd h hready
    ready_table := fun h => absurd h hready
    failed_kraft := fun h => absurd h hfailed
    len_wf := Memory.wf_write _ hs.len_wf hn }

/-- A BUILD that finds the lengths over-subscribed keeps the invariant (R79). -/
theorem Inv.endBuild_failed {s : State} (hs : Inv s) (hk : 2 ^ maxLength s.lengths < kraftSum s.lengths) :
    Inv (s.endBuild .failed 0 false) :=
  { hs with
    no_table := fun _ => ⟨rfl, rfl⟩
    ready_maxBits := nofun
    ready_kraft := nofun
    ready_complete := nofun
    ready_table := nofun
    failed_kraft := fun _ => hk }

/-- A BUILD that succeeds leaves the table the lengths define (R78). -/
theorem Inv.built {s : State} (hs : Inv s) (hk : kraftSum s.lengths ≤ 2 ^ maxLength s.lengths) : Inv s.built := by
  have hM : s.built.maxBits.toNat = maxLength s.lengths := hs.toNat_ofNat_maxLength
  have hsize : 2 ^ maxLength s.lengths ≤ s.tableSize := Nat.pow_le_pow_right (by omega) hs.maxLength_le_lmax
  exact
  { hs with
    no_table := fun h => absurd rfl h
    ready_maxBits := fun _ => hM
    ready_kraft := fun _ => by rw [hM]; exact hk
    ready_complete := fun _ => by rw [hM]; exact completeFlag_eq _
    ready_table := fun _ j hj => read_expandTable _ (by rwa [hM] at hj)
    failed_kraft := nofun
    table_wf := wf_expandTable hs.table_wf hk hsize }

theorem Inv.of_exec {s t : State} {i : Instr} (hs : Inv s) (h : exec i s = .next t) : Inv t := by
  cases i with
  | clear =>
    cases h
    exact hs.cleared.answered (.inl rfl)
  | pushLen clen =>
    obtain ⟨-, rfl⟩ | ⟨-, -, rfl⟩ | ⟨-, -, -, rfl⟩ | ⟨hl, hn, hc, rfl⟩ := execPushLen_cases h
    case inr.inr.inr => exact (hs.pushed hl hn hc).answered (.inl rfl)
    all_goals exact hs.answered (.inr rfl)
  | build =>
    obtain ⟨-, rfl⟩ | ⟨-, -, hk, rfl⟩ | ⟨-, -, hk, -, rfl⟩ := execBuild_cases h
    · exact hs.answered (.inr rfl)
    · exact (hs.endBuild_failed ((overSubscribed_iff _).1 hk)).answered (.inr rfl)
    · rw [← Bool.not_eq_true, overSubscribed_iff, Nat.not_lt] at hk
      exact (hs.built hk).answered (.inl rfl)
  | lookup idx =>
    obtain ⟨-, rfl⟩ | ⟨-, -, rfl⟩ | ⟨-, -, -, rfl⟩ := execLookup_cases h
    · exact hs.answered (.inr rfl)
    · exact hs.answered (.inr rfl)
    · exact hs.answered (.inl rfl)
  | readLen idx =>
    obtain ⟨-, rfl⟩ | ⟨-, -, rfl⟩ := execReadLen_cases h
    · exact hs.answered (.inr rfl)
    · exact hs.answered (.inl rfl)
  | readReg reg =>
    obtain ⟨-, rfl⟩ | ⟨r, -, rfl⟩ := execReadReg_cases h
    · exact hs.answered (.inr rfl)
    · exact hs.answered (.inl rfl)

theorem Inv.of_step {s t : State} (hs : Inv s) (h : step s = .next t) : Inv t :=
  step_preserves (fun _ es hu => hu.setEdges es) (fun _ hu => hu.applyReset) (fun _ w hu => hu.transferResponse w)
    (fun _ hu => hu.answered (.inr rfl)) (fun _ _ _ hu hexec => hu.of_exec hexec) hs h

/-! ### From states that meet the invariant no step stops -/

theorem Inv.execPushLen_answers {s : State} (hs : Inv s) (clen : BitVec 5) : ∃ t, execPushLen clen s = .next t := by
  by_cases hl : s.lifecycle = .loading
  · by_cases hn : s.nsym = s.params.nsymMax
    · exact ⟨_, execPushLen_of_full clen hl hn⟩
    · by_cases hc : s.params.lmax < clen
      · exact ⟨_, execPushLen_of_lmax_lt hl hn hc⟩
      · have hlt : s.nsym.toNat < s.lenSize :=
          lt_of_le_of_ne hs.nsym_le fun he => hn (BitVec.eq_of_toNat_eq he)
        exact ⟨_, execPushLen_of_room hl hlt (BitVec.not_lt.1 hc)⟩
  · exact ⟨_, execPushLen_of_not_loading clen hl⟩

theorem Inv.execBuild_answers {s : State} (hs : Inv s) : ∃ t, execBuild s = .next t := by
  by_cases hl : s.lifecycle = .loading
  · rcases Nat.lt_or_ge (2 ^ maxLength s.lengths) (kraftSum s.lengths) with hk | hk
    · exact ⟨_, execBuild_of_oversubscribed hl hs.nsym_le hk⟩
    · exact ⟨_, execBuild_of_kraft hl hs.nsym_le hs.length_le hk⟩
  · exact ⟨_, execBuild_of_not_loading hl⟩

theorem Inv.execLookup_answers {s : State} (hs : Inv s) (idx : BitVec 16) : ∃ t, execLookup idx s = .next t := by
  by_cases hl : s.lifecycle = .ready
  · rcases Nat.lt_or_ge idx.toNat (2 ^ s.maxBits.toNat) with hin | hout
    · have hm : s.maxBits.toNat ≤ s.params.lmax.toNat := by
        rw [hs.ready_maxBits hl]
        exact hs.maxLength_le_lmax
      exact ⟨_, execLookup_of_inTable hl hm hin⟩
    · exact ⟨_, execLookup_of_maxBits_le hl hout⟩
  · exact ⟨_, execLookup_of_not_ready idx hl⟩

theorem Inv.execReadLen_answers {s : State} (hs : Inv s) (idx : BitVec 16) : ∃ t, execReadLen idx s = .next t := by
  rcases Nat.lt_or_ge idx.toNat s.nsym.toNat with hlt | hge
  · exact ⟨_, execReadLen_of_lt_nsym hs.nsym_le hlt⟩
  · exact ⟨_, execReadLen_of_nsym_le hge⟩

theorem execReadReg_answers (reg : BitVec 4) (s : State) : ∃ t, execReadReg reg s = .next t := by
  unfold execReadReg
  split
  · exact ⟨_, rfl⟩
  · exact ⟨_, raise_eq _ _⟩

theorem Inv.exec_answers {s : State} (hs : Inv s) (i : Instr) : ∃ t, exec i s = .next t := by
  cases i with
  | clear => exact ⟨_, rfl⟩
  | pushLen clen => exact hs.execPushLen_answers clen
  | build => exact hs.execBuild_answers
  | lookup idx => exact hs.execLookup_answers idx
  | readLen idx => exact hs.execReadLen_answers idx
  | readReg reg => exact execReadReg_answers reg s

theorem Inv.step_answers {s : State} (hs : Inv s) : ∃ t, step s = .next t :=
  step_answers_of_exec_answers fun i rest => (hs.setEdges rest).exec_answers i

/-- Every run from reset ends in a state that meets the invariant, with the configuration's PARAMS. -/
theorem run_from_reset {c : Config} (hc : c.wf = true) (es : List HostEdge) (n : Nat) :
    ∃ s, core.run n ((State.resetWith c).setEdges es) = .next s ∧ Inv s ∧ s.params = c :=
  run_keeps (P := fun s => Inv s ∧ s.params = c) (fun _ hs => hs.1.step_answers)
    (fun _ _ hs h => ⟨hs.1.of_step h, (step_params h).trans hs.2⟩) n ⟨(inv_resetWith hc).setEdges es, rfl⟩

/-! ### The obligations -/

/-- Settles O15: `step_params` for every step, and the two fields of PARAMS read through the zero extension. -/
theorem paramsNeverWritten : Obligations.ParamsNeverWritten := by
  refine ⟨fun s t h => step_params h, fun s => ⟨zext28 (paramsBits s.params), ?_, ?_, ?_, rfl⟩⟩
  · rw [extractLsb'_zext28 _ (by decide), paramsBits_nsymMax]
  · rw [extractLsb'_zext28 _ (by decide), paramsBits_lmax]
  · rw [extractLsb'_zext28 _ (by decide), paramsBits_above_lmax]

/-- Settles O38: a valid entry in a READY state is one of the table the lengths define, and so that of a coded symbol. -/
theorem tableEntryFields : Obligations.TableEntryFields := by
  refine ⟨Entry.bits_valid_fields, rfl, fun e => Entry.bits_eq_zero_of_valid_eq_zero, ?_⟩
  intro s hs hl j hj sym len he
  have hM := hs.ready_maxBits hl
  have hn := s.length_lengths
  have hspec : tableSpec s.lengths j = .valid sym len := by rw [← hs.ready_table hl j hj, he]
  rw [hM, ← hn]
  exact tableSpec_valid_bounds (hM ▸ s.maxBits.isLt) (hn ▸ s.nsym.isLt) hspec

/-- Settles O51: every run from reset keeps the invariant and PARAMS, and the claim is among what the invariant says. -/
theorem reachableStates : Obligations.ReachableStates := by
  intro c es n hc
  obtain ⟨s, hrun, hs, rfl⟩ := run_from_reset hc es n
  refine ⟨s, hrun, hs.nsym_le, fun i hi => hs.length_le _ (State.mem_lengths.2 ⟨i, hi, rfl⟩), hs.no_table, fun hl => ?_⟩
  exact ⟨hs.ready_maxBits hl, hs.ready_kraft hl, hs.ready_table hl⟩

/-- Settles O9: after reset NSYM is 0 and STATE is not READY, so READ_LEN and LOOKUP refuse every index. -/
theorem resetValues : Obligations.ResetValues := by
  refine ⟨rfl, fun c => ⟨rfl, rfl, rfl, rfl, rfl, rfl, fun e he => ?_, fun idx => ?_, fun idx => ?_⟩⟩
  · rw [cmdReady, he]
    rfl
  · exact execReadLen_of_nsym_le (Nat.zero_le _)
  · exact execLookup_of_not_ready idx nofun

end Sys2Proof.Machine
end

section
/-! SUPPORT. The layout of R49 stated once for the six commands: which fields a row of the opcode map (R50) tests, and that
the decoding procedure (R58) answers a command exactly when its row is spelled; the obligations on encoding follow. -/

namespace Sys2Proof.Laws

/-! ### The layout of a command word (R46, R49) -/

/-- What `OP` holds in a word of the command (R46, R50). -/
def opcode : Instr → BitVec 4
  | .clear => 1
  | .pushLen _ => 2
  | .build => 3
  | .lookup _ => 4
  | .readLen _ => 5
  | .readReg _ => 6

/-- The width of the command's operand, which stands in the low bits of the word (R49). -/
def operandWidth : Instr → Nat
  | .clear | .build => 0
  | .pushLen _ => 5
  | .lookup _ | .readLen _ => 16
  | .readReg _ => 4

/-- The reserved bits of the command's format: those between its operand and `OP` (R49). -/
def reservedField (i : Instr) (w : Word) : BitVec (28 - operandWidth i) :=
  w.extractLsb' (operandWidth i) (28 - operandWidth i)

/-- The same command with the operand that stands in the word. -/
def withOperandOf (w : Word) : Instr → Instr
  | .clear => .clear
  | .pushLen _ => .pushLen (clenField w)
  | .build => .build
  | .lookup _ => .lookup (idxField w)
  | .readLen _ => .readLen (idxField w)
  | .readReg _ => .readReg (regField w)

theorem opcode_assigned (i : Instr) : ¬(opcode i = 0x0 ∨ 0x7 ≤ opcode i) := by
  cases i <;> simp [opcode]

theorem operandWidth_le (i : Instr) : operandWidth i ≤ 28 := by
  cases i <;> simp [operandWidth]

@[simp] theorem row_withOperandOf (w : Word) (i : Instr) : (withOperandOf w i).row = i.row := by
  cases i <;> rfl

/-- A row of the opcode map has `OP` as its match and tests all bits above the operand. -/
theorem row_eq (i : Instr) :
    i.row = ⟨(opcode i).setWidth 32 <<< 28, BitVec.allOnes 32 <<< operandWidth i⟩ := by
  cases i <;> simp only [Instr.row, opcode, operandWidth] <;> decide

/-! ### Rows of the opcode map (R50) -/

theorem getLsbD_and_mask (w : Word) (k : Nat) {j : Nat} (hj : j < 32) :
    (w &&& BitVec.allOnes 32 <<< k).getLsbD j = (decide (k ≤ j) && w.getLsbD j) := by
  have hlt : j - k < 32 := by omega
  simp only [BitVec.getLsbD_and, BitVec.getLsbD_shiftLeft, BitVec.getLsbD_allOnes, hj, hlt, decide_true, Bool.true_and,
    ← decide_not, Nat.not_lt, Bool.and_comm]

theorem getLsbD_match (op : BitVec 4) {j : Nat} (hj : j < 32) :
    (op.setWidth 32 <<< 28).getLsbD j = (decide (28 ≤ j) && op.getLsbD (j - 28)) := by
  have hlt : j - 28 < 32 := by omega
  simp only [BitVec.getLsbD_shiftLeft, BitVec.getLsbD_setWidth, hj, hlt, decide_true, Bool.true_and, ← decide_not,
    Nat.not_lt]

theorem opField_eq_iff (w : Word) (op : BitVec 4) :
    opField w = op ↔ ∀ j < 4, w.getLsbD (28 + j) = op.getLsbD j := by
  simp +contextual [BitVec.eq_of_getLsbD_eq_iff, opField]

theorem extractLsb'_eq_zero_iff (w : Word) (start len : Nat) :
    w.extractLsb' start len = 0 ↔ ∀ j < len, w.getLsbD (start + j) = false := by
  simp +contextual [BitVec.eq_of_getLsbD_eq_iff]

/-- A mask that drops the low `k` bits leaves `op` in bits 31:28 and 0 below exactly when `OP` is `op` and the bits from
`k` to 27 are 0. -/
theorem and_mask_eq_iff (w : Word) (op : BitVec 4) {k : Nat} (hk : k ≤ 28) :
    w &&& BitVec.allOnes 32 <<< k = op.setWidth 32 <<< 28 ↔ opField w = op ∧ w.extractLsb' k (28 - k) = 0 := by
  rw [opField_eq_iff, extractLsb'_eq_zero_iff, BitVec.eq_of_getLsbD_eq_iff]
  have hbits : (∀ j < 32, (w &&& BitVec.allOnes 32 <<< k).getLsbD j = (op.setWidth 32 <<< 28).getLsbD j) ↔
      ∀ j < 32, (decide (k ≤ j) && w.getLsbD j) = (decide (28 ≤ j) && op.getLsbD (j - 28)) :=
    forall₂_congr fun j hj => by rw [getLsbD_and_mask w k hj, getLsbD_match op hj]
  rw [hbits]
  constructor
  · refine fun h => ⟨fun j hj => ?_, fun j hj => ?_⟩
    · have hk' : k ≤ 28 + j := by omega
      simpa [hk'] using h (28 + j) (by omega)
    · have hlow : ¬28 ≤ k + j := by omega
      simpa [hlow] using h (k + j) (by omega)
  · rintro ⟨hop, hres⟩ j hj
    by_cases hhigh : 28 ≤ j
    · obtain ⟨i, rfl⟩ := Nat.exists_eq_add_of_le hhigh
      have hk' : k ≤ 28 + i := by omega
      simp [hk', hop i (by omega)]
    · by_cases hmid : k ≤ j
      · obtain ⟨i, rfl⟩ := Nat.exists_eq_add_of_le hmid
        simp [hhigh, hres i (by omega)]
      · simp [hmid, hhigh]

/-- A word spells a command's row exactly when it has the command's opcode and no reserved bit is 1. -/
theorem row_spells_iff (i : Instr) (w : Word) :
    i.row.spells w = true ↔ opField w = opcode i ∧ reservedField i w = 0 := by
  rw [row_eq, OpRow.spells, decide_eq_true_eq, and_mask_eq_iff w _ (operandWidth_le i), reservedField]

theorem spelling (i : Instr) : Spelling.Statement i := by
  cases i with
  | clear => exact Spelling.clear
  | pushLen clen => exact Spelling.pushLen clen
  | build => exact Spelling.build
  | lookup idx => exact Spelling.lookup idx
  | readLen idx => exact Spelling.readLen idx
  | readReg reg => exact Spelling.readReg reg

theorem mem_opcodeMap {r : OpRow} : r ∈ opcodeMap ↔ ∃ i : Instr, i.row = r := by
  constructor
  · intro h
    simp only [opcodeMap, List.mem_cons, List.not_mem_nil, or_false] at h
    obtain rfl | rfl | rfl | rfl | rfl | rfl := h <;> exact ⟨_, rfl⟩
  · rintro ⟨i, rfl⟩
    exact (spelling i).2

/-! ### The decoding procedure (R58) -/

theorem decode_of_fields {i : Instr} {w : Word} (hop : opField w = opcode i) (hres : reservedField i w = 0) :
    decode w = .ok (withOperandOf w i) := by
  unfold decode
  rw [hop]
  cases i <;> exact if_neg (not_not.2 hres)

/-- Where a reserved field guards a command, the command is answered only when the field is 0. -/
theorem of_guard_eq_ok {n : Nat} {r : BitVec n} {e : DecodeError} {i j : Instr}
    (h : (if r ≠ 0 then .error e else .ok j : Except DecodeError Instr) = .ok i) : r = 0 ∧ j = i := by
  split at h
  · cases h
  · next hr => exact ⟨not_not.1 hr, Except.ok.inj h⟩

theorem fields_of_decode {i : Instr} {w : Word} (h : decode w = .ok i) :
    opField w = opcode i ∧ reservedField i w = 0 := by
  unfold decode at h
  split at h
  case h_7 => cases h
  all_goals
    next hop =>
      obtain ⟨hres, rfl⟩ := of_guard_eq_ok h
      exact ⟨BitVec.eq_of_toNat_eq hop, hres⟩

theorem spells_of_decode {i : Instr} {w : Word} (h : decode w = .ok i) : i.row.spells w = true :=
  (row_spells_iff i w).2 (fields_of_decode h)

theorem decode_of_spells {i : Instr} {w : Word} (h : i.row.spells w = true) : decode w = .ok (withOperandOf w i) :=
  have ⟨hop, hres⟩ := (row_spells_iff i w).1 h
  decode_of_fields hop hres

/-- A word is a command word exactly when it decodes to a command. -/
theorem commandWordWf_iff (w : Word) : commandWordWf w = true ↔ ∃ i, decode w = .ok i := by
  simp only [commandWordWf, List.any_eq_true, mem_opcodeMap]
  constructor
  · rintro ⟨_, ⟨i, rfl⟩, hi⟩
    exact ⟨_, decode_of_spells hi⟩
  · rintro ⟨i, hi⟩
    exact ⟨_, ⟨i, rfl⟩, spells_of_decode hi⟩

/-- A word that decodes to a command spells that command's row only. -/
theorem spells_iff_eq_row {i : Instr} {w : Word} (h : decode w = .ok i) {r : OpRow} (hr : r ∈ opcodeMap) :
    r.spells w = true ↔ r = i.row := by
  obtain ⟨j, rfl⟩ := mem_opcodeMap.1 hr
  constructor
  · intro hj
    have hij : i = withOperandOf w j := Except.ok.inj (h.symm.trans (decode_of_spells hj))
    rw [hij, row_withOperandOf]
  · intro hj
    rw [hj]
    exact spells_of_decode h

theorem filter_spells {i : Instr} {w : Word} (h : decode w = .ok i) :
    opcodeMap.filter (fun r => r.spells w) = [i.row] := by
  have hrow : opcodeMap.filter (fun r => r.spells w) = opcodeMap.filter (· = i.row) :=
    List.filter_congr fun r hr => by rw [Bool.eq_iff_iff, spells_iff_eq_row h hr, decide_eq_true_eq]
  rw [hrow]
  cases i <;> rfl

/-! ### Decoding an encoded command -/

/-- An operand is read back from below a word whose low bits are 0. -/
theorem extractLsb'_or_setWidth {k : Nat} (v : Word) (x : BitVec k) (hk : k ≤ 32) (hv : v.extractLsb' 0 k = 0) :
    (v ||| x.setWidth 32).extractLsb' 0 k = x := by
  rw [BitVec.extractLsb'_or, hv, BitVec.extractLsb'_setWidth_of_le (by omega), BitVec.extractLsb'_eq_self]
  exact BitVec.zero_or

theorem withOperandOf_encode (i : Instr) : withOperandOf (encode i) i = i := by
  cases i with
  | clear => rfl
  | build => rfl
  | pushLen clen => exact congrArg Instr.pushLen (extractLsb'_or_setWidth _ clen (by decide) (by decide))
  | lookup idx => exact congrArg Instr.lookup (extractLsb'_or_setWidth _ idx (by decide) (by decide))
  | readLen idx => exact congrArg Instr.readLen (extractLsb'_or_setWidth _ idx (by decide) (by decide))
  | readReg reg => exact congrArg Instr.readReg (extractLsb'_or_setWidth _ reg (by decide) (by decide))

theorem decode_encode (i : Instr) : decode (encode i) = .ok i := by
  rw [decode_of_spells (spelling i).1, withOperandOf_encode]

/-! ### The obligations -/

/-- Settles O4: each row's equation is `OpRow.spells`, so a spelled row gives the command with the word's operand, and a
decoded command has its row spelled and its opcode assigned. -/
theorem decodeAgreesWithOpcodeMap : Obligations.DecodeAgreesWithOpcodeMap := by
  intro w
  have spells : ∀ i : Instr, w &&& i.row.mask = i.row.value → i.row.spells w = true := fun i h => decide_eq_true h
  have masked : ∀ i : Instr, decode w = .ok i → w &&& i.row.mask = i.row.value := fun i h =>
    of_decide_eq_true (spells_of_decode h)
  refine ⟨⟨fun h => decode_of_spells (spells .clear h), masked .clear⟩,
    ⟨fun h => ⟨_, decode_of_spells (spells (.pushLen 0) h)⟩, fun ⟨clen, h⟩ => masked (.pushLen clen) h⟩,
    ⟨fun h => decode_of_spells (spells .build h), masked .build⟩,
    ⟨fun h => ⟨_, decode_of_spells (spells (.lookup 0) h)⟩, fun ⟨idx, h⟩ => masked (.lookup idx) h⟩,
    ⟨fun h => ⟨_, decode_of_spells (spells (.readLen 0) h)⟩, fun ⟨idx, h⟩ => masked (.readLen idx) h⟩,
    ⟨fun h => ⟨_, decode_of_spells (spells (.readReg 0) h)⟩, fun ⟨reg, h⟩ => masked (.readReg reg) h⟩, fun hop => ?_⟩
  cases hd : decode w with
  | error e => exact ⟨e, rfl⟩
  | ok i =>
    obtain ⟨hi, -⟩ := fields_of_decode hd
    exact absurd (hi ▸ hop) (opcode_assigned i)

/-- Settles O5: an encoded command decodes to itself, and the rows a word spells are those of the command it decodes to. -/
theorem everyWordIsOneCommandOrIllegal : Obligations.EveryWordIsOneCommandOrIllegal := by
  intro w
  have encoded : ∀ k, encode k = w → decode w = .ok k := fun k hk => hk ▸ decode_encode k
  cases hd : decode w with
  | ok i =>
    refine .inl ⟨⟨i, rfl, fun k hk => ?_⟩, by rw [filter_spells hd, List.length_singleton]⟩
    exact Except.ok.inj ((encoded k hk).symm.trans hd)
  | error e =>
    refine .inr ⟨⟨e, rfl⟩, fun k hk => ?_, ?_⟩
    · cases (encoded k hk).symm.trans hd
    · rw [← Bool.not_eq_true, commandWordWf_iff]
      rintro ⟨i, hi⟩
      cases hi.symm.trans hd

end Sys2Proof.Laws
end

section
/-! The length input commands: what a completed PUSH_LEN leaves, what every command but CLEAR keeps of the pushed lengths, and
a list of pushes; the obligations on length input follow. -/

namespace Sys2Proof.Machine

/-! ### Decoding once the opcode is known (R58) -/

/-- A word with a command's opcode decodes to that command exactly when its reserved field is 0 (R54). -/
theorem decode_of_opcode {i : Instr} {w : Word} (hop : opField w = Laws.opcode i) :
    decode w = if Laws.reservedField i w = 0 then .ok (Laws.withOperandOf w i)
      else .error (.reservedBits (Laws.opcode i)) := by
  by_cases hres : Laws.reservedField i w = 0
  · rw [if_pos hres, Laws.decode_of_fields hop hres]
  · rw [if_neg hres]
    unfold decode
    rw [hop]
    cases i <;> exact if_pos hres

/-! ### The state a completed PUSH_LEN leaves (R62) -/

/-- The state in which a completed PUSH_LEN leaves `s`, before it answers (R62). -/
def State.pushed (s : State) (clen : BitVec 5) : State :=
  (s.setLen (Memory.write unwrittenLen s.len s.nsym.toNat clen)).setNsym (s.nsym + 1)

/-- With room in LEN, NSYM does not wrap. -/
theorem State.succ_nsym_lt {s : State} (hn : s.nsym.toNat < s.lenSize) : s.nsym.toNat + 1 < 2 ^ 16 :=
  (Nat.succ_le_of_lt hn).trans_lt s.params.nsymMax.isLt

theorem State.toNat_pushed_nsym {s : State} (clen : BitVec 5) (hn : s.nsym.toNat < s.lenSize) :
    (s.pushed clen).nsym.toNat = s.nsym.toNat + 1 :=
  BitVec.toNat_add_of_lt (State.succ_nsym_lt hn)

theorem State.pushed_lenAt (s : State) (clen : BitVec 5) (k : Nat) :
    (s.pushed clen).lenAt k = if k = s.nsym.toNat then clen else s.lenAt k :=
  s.lenAt_setLen_write s.nsym.toNat clen k

theorem State.pushed_lengths {s : State} (clen : BitVec 5) (hn : s.nsym.toNat < s.lenSize) :
    (s.pushed clen).lengths = s.lengths ++ [clen.toNat] :=
  s.lengths_push clen (State.succ_nsym_lt hn)

/-- A PUSH_LEN that passes every check answers the new NSYM (R62). -/
theorem exec_pushLen_completes {s : State} {clen : BitVec 5} (hl : s.lifecycle = .loading)
    (hn : s.nsym.toNat < s.lenSize) (hc : clen ≤ s.params.lmax) :
    exec (.pushLen clen) s = .next ((s.pushed clen).setRsp (some (BitVec.ofNat 32 (s.nsym.toNat + 1)))) := by
  have hroom : exec (.pushLen clen) s = _ := execPushLen_of_room hl hn hc
  rw [hroom, respond_eq, responseWord_ok_zext28 (by decide), ← State.toNat_pushed_nsym clen hn]
  rfl

/-! ### What every command but CLEAR keeps (R63) -/

/-- A command other than CLEAR changes the response port only, or STATE is LOADING and it is a BUILD, which leaves the
lengths, or a completed PUSH_LEN. -/
theorem exec_cases_of_ne_clear {i : Instr} {s t : State} (hi : i ≠ .clear) (h : exec i s = .next t) :
    t = { s with rsp := t.rsp } ∨
    (s.lifecycle = .loading ∧ t.nsym = s.nsym ∧ t.len = s.len) ∨
    (s.lifecycle = .loading ∧ s.nsym.toNat < s.lenSize ∧ ∃ clen r, t = (s.pushed clen).setRsp r) := by
  cases i with
  | clear => exact absurd rfl hi
  | pushLen clen =>
    obtain ⟨-, rfl⟩ | ⟨-, -, rfl⟩ | ⟨-, -, -, rfl⟩ | ⟨hl, hn, -, rfl⟩ := execPushLen_cases h
    case inr.inr.inr => exact .inr (.inr ⟨hl, hn, clen, _, rfl⟩)
    all_goals exact .inl rfl
  | build =>
    obtain ⟨-, rfl⟩ | ⟨hl, -, -, rfl⟩ | ⟨hl, -, -, -, rfl⟩ := execBuild_cases h
    · exact .inl rfl
    · exact .inr (.inl ⟨hl, rfl, rfl⟩)
    · exact .inr (.inl ⟨hl, rfl, rfl⟩)
  | lookup idx => obtain ⟨-, rfl⟩ | ⟨-, -, rfl⟩ | ⟨-, -, -, rfl⟩ := execLookup_cases h <;> exact .inl rfl
  | readLen idx => obtain ⟨-, rfl⟩ | ⟨-, -, rfl⟩ := execReadLen_cases h <;> exact .inl rfl
  | readReg reg => obtain ⟨-, rfl⟩ | ⟨r, -, rfl⟩ := execReadReg_cases h <;> exact .inl rfl

/-! ### Lists of commands and of pushes (R36, R61) -/

theorem execAll_cons_of_next {i : Instr} {s t : State} (h : exec i s = .next t) (rest : List Instr) :
    execAll (i :: rest) s = execAll rest t := by
  rw [execAll, h]

/-- Legal pushes that fit append their lengths to those held. -/
theorem execAll_pushLen (ls : List (BitVec 5)) : ∀ {s : State}, s.lifecycle = .loading →
    s.nsym.toNat + ls.length ≤ s.lenSize → (∀ l ∈ ls, l ≤ s.params.lmax) →
    ∃ t, execAll (ls.map .pushLen) s = .next t ∧ t.lengths = s.lengths ++ ls.map BitVec.toNat ∧
      t = { s with len := t.len, nsym := t.nsym, rsp := t.rsp } := by
  induction ls with
  | nil => exact fun {s} _ _ _ => ⟨s, rfl, (List.append_nil _).symm, rfl⟩
  | cons l ls ih =>
    intro s hl hroom hlegal
    obtain ⟨hfirst, hrest⟩ := List.forall_mem_cons.1 hlegal
    rw [List.length_cons] at hroom
    have hn : s.nsym.toNat < s.lenSize := by omega
    have hroom' : (s.pushed l).nsym.toNat + ls.length ≤ s.lenSize := by
      rw [State.toNat_pushed_nsym l hn]
      omega
    obtain ⟨t, hrun, hlengths, hframe⟩ :=
      ih (s := (s.pushed l).setRsp (some (BitVec.ofNat 32 (s.nsym.toNat + 1)))) hl hroom' hrest
    refine ⟨t, ?_, ?_, hframe⟩
    · rw [List.map_cons, execAll_cons_of_next (exec_pushLen_completes hl hn hfirst), hrun]
    · rw [hlengths, State.setRsp_lengths, State.pushed_lengths l hn, List.append_assoc, List.map_cons,
        List.singleton_append]

/-! ### The obligations -/

/-- Settles O17: the encoding is `decode_of_opcode`, and the cases are those of `execPushLen`, the last of them leaving
`State.pushed`. -/
theorem pushLenAppendsOneLength : Obligations.PushLenAppendsOneLength := by
  refine ⟨fun w hop => decode_of_opcode (i := .pushLen 0) hop, fun s clen => ⟨?badState, ?capacity, ?lengthRange, ?done⟩⟩
  case badState => exact execPushLen_of_not_loading clen
  case capacity => exact execPushLen_of_full clen
  case lengthRange => exact fun hl hn hc => execPushLen_of_lmax_lt hl hn (BitVec.lt_def.2 hc)
  case done =>
    intro hl hn hc
    refine ⟨_, exec_pushLen_completes hl hn (BitVec.le_def.2 hc), rfl, ?_, fun k hk => ?_, State.toNat_pushed_nsym clen hn, rfl⟩
    · rw [State.setRsp_lenAt, State.pushed_lenAt, if_pos rfl]
    · rw [State.setRsp_lenAt, State.pushed_lenAt, if_neg hk]

/-- Settles O18: the encoding is `decode_of_opcode`, and an index is at or above NSYM or names a stored length. -/
theorem readLenReadsOneLength : Obligations.ReadLenReadsOneLength := by
  refine ⟨fun w hop => decode_of_opcode (i := .readLen 0) hop, fun s idx => ⟨execReadLen_of_nsym_le, fun hn hidx => ?_⟩⟩
  have hread : exec (.readLen idx) s = _ := execReadLen_of_lt_nsym hn hidx
  rw [hread, respond_eq, responseWord_ok_zext28 (by decide)]
  rfl

/-- Settles O46: of the commands other than CLEAR only a completed PUSH_LEN writes LEN, at NSYM itself, and only in LOADING
is anything but the response port changed. -/
theorem onlyClearDiscardsWhatIsHeld : Obligations.OnlyClearDiscardsWhatIsHeld := by
  intro i s t hi h
  obtain hframe | ⟨hl, hnsym, hlen⟩ | ⟨hl, hn, clen, r, rfl⟩ := exec_cases_of_ne_clear hi h
  · rw [hframe]
    exact ⟨le_rfl, fun k _ => rfl, fun _ => rfl⟩
  · refine ⟨hnsym ▸ le_rfl, fun k _ => ?_, fun hne => absurd hl hne⟩
    rw [State.lenAt, State.lenAt, hlen]
  · refine ⟨?_, fun k hk => ?_, fun hne => absurd hl hne⟩
    · exact (Nat.le_succ _).trans_eq (State.toNat_pushed_nsym clen hn).symm
    · rw [State.setRsp_lenAt, State.pushed_lenAt, if_neg hk.ne]

/-- Settles O54: the pushes append to the empty length array, whose length is NSYM. -/
theorem pushesLoadTheLengthArray : Obligations.PushesLoadTheLengthArray := by
  intro s ls hl hzero hroom hlegal
  have hempty : s.lengths = [] := by rw [State.lengths, hzero]; rfl
  have hfits : s.nsym.toNat + ls.length ≤ s.lenSize := by rw [hzero]; exact (Nat.zero_add _).trans_le hroom
  obtain ⟨t, hrun, hlengths, hframe⟩ := execAll_pushLen ls hl hfits fun l hm => BitVec.le_def.2 (hlegal l hm)
  rw [hempty, List.nil_append] at hlengths
  refine ⟨t, hrun, ?_, hlengths, hframe⟩
  rw [← t.length_lengths, hlengths, List.length_map]

end Sys2Proof.Machine
end

section
/-! What BUILD computes from a length array, step by step: the sums OFFS (R69), the order (R70), the codes (R72, R73)
and the slots their ranges fill (R75 to R77); the obligations about these values follow. -/

namespace Sys2Proof.Machine

/-! ### The largest length (R67) -/

theorem maxLength_eq_zero {ls : List Nat} (h : ∀ l ∈ ls, l = 0) : maxLength ls = 0 :=
  Nat.le_zero.1 (maxLength_le fun l hl => (h l hl).le)

theorem maxLength_eq_zero_or_mem (ls : List Nat) : maxLength ls = 0 ∨ maxLength ls ∈ ls := by
  induction ls with
  | nil => exact .inl rfl
  | cons a ls ih =>
    have hcons : maxLength (a :: ls) = max a (maxLength ls) := rfl
    rcases le_total a (maxLength ls) with hle | hle
    · rw [hcons, max_eq_right hle]
      exact ih.imp_right (List.mem_cons_of_mem a)
    · rw [hcons, max_eq_left hle]
      exact .inr List.mem_cons_self

/-! ### OFFS as positions in ORD (R69) -/

theorem length_ord (ls : List Nat) : (ord ls).length = (ls.filter (0 < ·)).length := by
  rw [← (map_getD_ord_perm ls).length_eq, List.length_map]

theorem countP_pos_lt_succ {l : Nat} (hl : l ≠ 0) (ls : List Nat) :
    ls.countP (fun x => 0 < x ∧ x < l + 1) = ls.countP (fun x => 0 < x ∧ x < l) + ls.count l := by
  induction ls with
  | nil => rfl
  | cons x xs ih =>
    rw [List.countP_cons, List.countP_cons, List.count_cons, ih]
    simp only [decide_eq_true_eq, beq_iff_eq]
    split_ifs <;> omega

/-- `OFFS[l]` counts the coded symbols of length below `l`. -/
theorem offs_eq_countP (ls : List Nat) (l : Nat) : offs ls l = ls.countP fun x => 0 < x ∧ x < l := by
  have hnone : ∀ k ≤ 1, ls.countP (fun x => 0 < x ∧ x < k) = 0 := fun k hk =>
    List.countP_eq_zero.2 fun x _ hx => by
      rw [decide_eq_true_eq] at hx
      omega
  induction l with
  | zero => exact (hnone 0 (by omega)).symm
  | succ l ih =>
    by_cases hl : l = 0
    · rw [offs, if_pos hl, hl, hnone 1 (by omega)]
    · rw [offs, if_neg hl, ih, countP_pos_lt_succ hl, hist]

/-- Above every length, `OFFS` counts all the coded symbols. -/
theorem offs_eq_length_ord {ls : List Nat} {lmax : Nat} (h : ∀ l ∈ ls, l ≤ lmax) :
    offs ls (lmax + 1) = (ord ls).length := by
  rw [offs_eq_countP, length_ord, ← List.countP_eq_length_filter]
  refine List.countP_congr fun l hl => ?_
  have hle := h l hl
  simp only [decide_eq_true_eq]
  omega

/-- `OFFS[l]` counts the symbols of ORD whose length is below `l`. -/
theorem offs_eq_countP_ord (ls : List Nat) (l : Nat) : offs ls l = (ord ls).countP fun s => ls.getD s 0 < l := by
  have hperm := (map_getD_ord_perm ls).countP_eq fun x => x < l
  rw [List.countP_map, List.countP_filter] at hperm
  rw [offs_eq_countP]
  refine Eq.trans (List.countP_congr fun x _ => ?_) hperm.symm
  simp [and_comm]

/-- In a list whose `f` never falls, the positions with `f` below `b` are the first ones. -/
theorem getElem_lt_iff_lt_countP {f : Nat → Nat} {b : Nat} {xs : List Nat} (hs : xs.Pairwise fun x y => f x ≤ f y) :
    ∀ (k : Nat) (h : k < xs.length), f xs[k] < b ↔ k < xs.countP fun x => f x < b := by
  induction xs with
  | nil => exact fun k h => absurd h (Nat.not_lt_zero k)
  | cons x xs ih =>
    obtain ⟨hx, hs⟩ := List.pairwise_cons.1 hs
    intro k h
    by_cases hb : f x < b
    · rw [List.countP_cons_of_pos (by simpa using hb)]
      cases k with
      | zero => simp [hb]
      | succ k =>
        rw [List.getElem_cons_succ, ih hs k (Nat.lt_of_succ_lt_succ h)]
        omega
    · have hall : ∀ y ∈ x :: xs, ¬f y < b := fun y hy => by
        rcases List.mem_cons.1 hy with rfl | hy
        · exact hb
        · exact fun hlt => hb ((hx y hy).trans_lt hlt)
      have hzero : (x :: xs).countP (fun x => f x < b) = 0 :=
        List.countP_eq_zero.2 fun y hy => by simpa using hall y hy
      rw [hzero]
      exact iff_of_false (hall _ (List.getElem_mem h)) (Nat.not_lt_zero k)

/-! ### The walk that assigns the codes (R72) -/

/-- The walk assigns its first code by shifting NEXT to the first length. -/
theorem code_of_head?_assignCodes {next bit : Nat} {ps : List (Nat × Nat)} {c : Code}
    (h : (assignCodes next bit ps).head? = some c) : c.code = next <<< (c.len - bit) := by
  cases ps with
  | nil => cases h
  | cons p ps =>
    cases h
    rfl

/-- Each code of the walk is the one before plus 1, shifted by the growth in length. -/
theorem assignCodes_recurrence {m : Nat} {ps : List (Nat × Nat)} : ∀ {next bit : Nat}, Walkable m bit ps →
    (assignCodes next bit ps).IsChain fun a b => a.len ≤ b.len ∧ b.code = (a.code + 1) * 2 ^ (b.len - a.len) := by
  induction ps with
  | nil => exact fun _ => List.isChain_nil
  | cons p ps ih =>
    intro next bit h
    rw [assignCodes, List.isChain_cons]
    refine ⟨fun b hb => ⟨?_, ?_⟩, ih h.tail⟩
    · have hmem := List.mem_map_of_mem (f := fun c : Code => (c.sym, c.len)) (List.mem_of_mem_head? hb)
      rw [map_assignCodes] at hmem
      exact (h.tail.1 _ hmem).1
    · rw [code_of_head?_assignCodes hb, Nat.shiftLeft_eq]

theorem rangeSum_cons (m : Nat) (p : Nat × Nat) (ps : List (Nat × Nat)) :
    rangeSum m (p :: ps) = 2 ^ (m - p.2) + rangeSum m ps := rfl

/-- Every slot between where the walk stands and where it ends lies in a code's range. -/
theorem assignCodes_covered {m : Nat} {ps : List (Nat × Nat)} : ∀ {next bit j : Nat}, Walkable m bit ps →
    next * 2 ^ (m - bit) ≤ j → j < next * 2 ^ (m - bit) + rangeSum m ps →
    ∃ c ∈ assignCodes next bit ps, c.lo m ≤ j ∧ j < c.hi m := by
  induction ps with
  | nil =>
    intro next bit j _ hlo hhi
    exact absurd (hlo.trans_lt hhi) (lt_irrefl _)
  | cons p ps ih =>
    intro next bit j h hlo hhi
    obtain ⟨hb, hm⟩ := h.1 p (by simp)
    obtain ⟨w1, w2, w3⟩ := walk_range (next := next) hb hm
    rw [rangeSum_cons] at hhi
    rw [assignCodes]
    by_cases hj : j < next * 2 ^ (m - bit) + 2 ^ (m - p.2)
    · exact ⟨_, List.mem_cons_self, w1.trans_le hlo, hj.trans_eq w2.symm⟩
    · obtain ⟨c, hc, hr⟩ := ih (next := next <<< (p.2 - bit) + 1) (j := j) h.tail (by omega) (by omega)
      exact ⟨c, List.mem_cons_of_mem _ hc, hr⟩

/-! ### The canonical codes (R72, R73) -/

theorem map_sym_canonicalCodes (ls : List Nat) : (canonicalCodes ls).map Code.sym = ord ls := by
  have hpairs := congrArg (List.map Prod.fst) (map_assignCodes 0 0 (orderedCodes ls))
  rw [List.map_map, orderedCodes, List.map_map] at hpairs
  exact hpairs.trans (List.map_id _)

/-- A symbol has at most one code. -/
theorem code_eq_of_sym_eq {ls : List Nat} {a b : Code} (ha : a ∈ canonicalCodes ls) (hb : b ∈ canonicalCodes ls)
    (h : a.sym = b.sym) : a = b := by
  have hnodup : ((canonicalCodes ls).map Code.sym).Nodup := map_sym_canonicalCodes ls ▸ ord_nodup ls
  exact List.inj_on_of_nodup_map hnodup ha hb h

theorem code_len_pos {ls : List Nat} {c : Code} (hc : c ∈ canonicalCodes ls) : 1 ≤ c.len := by
  obtain ⟨hsym, hlen⟩ := mem_canonicalCodes hc
  exact hlen ▸ (mem_ord.1 hsym).2

/-- When the Kraft check passes, a code fits its length. -/
theorem code_lt {ls : List Nat} (hk : kraftSum ls ≤ 2 ^ maxLength ls) {c : Code} (hc : c ∈ canonicalCodes ls) :
    c.code < 2 ^ c.len := by
  have hhi : (c.code + 1) * 2 ^ (maxLength ls - c.len) ≤ 2 ^ c.len * 2 ^ (maxLength ls - c.len) := by
    rw [← Nat.pow_add, Nat.add_sub_cancel' (code_len_le hc), ← Nat.shiftLeft_eq]
    exact code_hi_le hk hc
  exact Nat.le_of_mul_le_mul_right hhi (Nat.two_pow_pos _)

/-- Earlier codes are of smaller length, or of the same length with the smaller symbol index. -/
theorem canonicalCodes_ordered (ls : List Nat) :
    (canonicalCodes ls).Pairwise fun a b => a.len < b.len ∨ (a.len = b.len ∧ a.sym < b.sym) := by
  have hord := ord_pairwise ls
  rw [← map_sym_canonicalCodes, List.pairwise_map] at hord
  refine hord.imp_of_mem fun {a b} ha hb hab => ?_
  rwa [(mem_canonicalCodes ha).2, (mem_canonicalCodes hb).2]

/-- Of two codes of equal length, the one of the smaller symbol index is the smaller. -/
theorem code_lt_of_sym_lt {ls : List Nat} {a b : Code} (ha : a ∈ canonicalCodes ls) (hb : b ∈ canonicalCodes ls)
    (hlen : a.len = b.len) (hsym : a.sym < b.sym) : a.code < b.code := by
  obtain ⟨i, hi, rfl⟩ := List.mem_iff_getElem.1 ha
  obtain ⟨j, hj, rfl⟩ := List.mem_iff_getElem.1 hb
  rcases lt_trichotomy i j with hij | rfl | hji
  · have hrange : (canonicalCodes ls)[i].hi (maxLength ls) ≤ (canonicalCodes ls)[j].lo (maxLength ls) :=
      List.pairwise_iff_getElem.1 (assignCodes_disjoint (orderedCodes_walkable ls)) i j hi hj hij
    rw [Code.hi, Code.lo, hlen, Nat.shiftLeft_eq, Nat.shiftLeft_eq] at hrange
    exact Nat.le_of_mul_le_mul_right hrange (Nat.two_pow_pos _)
  · exact absurd hsym (lt_irrefl _)
  · have hback := List.pairwise_iff_getElem.1 (canonicalCodes_ordered ls) j i hj hi hji
    omega

/-- The slot where a code's range begins has the code's leading bits, however many are taken. -/
theorem lo_shiftRight {m k : Nat} {c : Code} (hk : k ≤ c.len) (hm : c.len ≤ m) :
    c.lo m >>> (m - k) = c.code >>> (c.len - k) := by
  have hsplit : m - k = (m - c.len) + (c.len - k) := by omega
  rw [Code.lo, hsplit, Nat.shiftRight_add, Nat.shiftLeft_shiftRight]

/-- No code begins with another: both would cover the slot where the longer one's range begins. -/
theorem code_not_prefix {ls : List Nat} {a b : Code} (ha : a ∈ canonicalCodes ls) (hb : b ∈ canonicalCodes ls)
    (hne : a ≠ b) (hlen : a.len ≤ b.len) : b.code >>> (b.len - a.len) ≠ a.code := by
  intro hpre
  have hcovers : ∀ {c : Code}, c.len ≤ b.len → b.code >>> (b.len - c.len) = c.code →
      c.covers (maxLength ls) (b.lo (maxLength ls)) = true := fun hle hc =>
    decide_eq_true ((lo_shiftRight hle (code_len_le hb)).trans hc)
  exact hne (code_covers_unique ha hb (hcovers hlen hpre) (hcovers le_rfl (by rw [Nat.sub_self, Nat.shiftRight_zero])))

/-- Each symbol adds at most `2^(M-1)` slots to KSUM (R83). -/
theorem kraftSum_le (ls : List Nat) : kraftSum ls ≤ ls.length * 2 ^ (maxLength ls - 1) := by
  have hterm : ∀ x ∈ (ls.filter (0 < ·)).map (fun l => 2 ^ (maxLength ls - l)), x ≤ 2 ^ (maxLength ls - 1) := by
    intro x hx
    obtain ⟨l, hl, rfl⟩ := List.mem_map.1 hx
    have hpos : 0 < l := by simpa using List.of_mem_filter hl
    exact Nat.pow_le_pow_right (by omega) (by omega)
  have hsum := List.sum_le_card_nsmul _ _ hterm
  rw [List.length_map, smul_eq_mul] at hsum
  exact hsum.trans (Nat.mul_le_mul_right _ (List.length_filter_le _ _))

/-! ### The slots the codes' ranges fill (R75 to R77) -/

/-- The codes' ranges together are the slots below KSUM. -/
theorem exists_code_range_iff {ls : List Nat} {j : Nat} :
    (∃ c ∈ canonicalCodes ls, c.lo (maxLength ls) ≤ j ∧ j < c.hi (maxLength ls)) ↔ j < kraftSum ls := by
  have hwalk := orderedCodes_walkable ls
  rw [← rangeSum_orderedCodes]
  constructor
  · rintro ⟨c, hc, -, hj⟩
    obtain ⟨-, hhi, -⟩ := assignCodes_bounds hwalk c hc
    omega
  · exact fun hj => assignCodes_covered (next := 0) hwalk (by omega) (by omega)

/-- A slot in a code's range holds the code's entry. -/
theorem tableSpec_of_mem_range {ls : List Nat} {c : Code} {j : Nat} (hc : c ∈ canonicalCodes ls)
    (hlo : c.lo (maxLength ls) ≤ j) (hhi : j < c.hi (maxLength ls)) : tableSpec ls j = codeEntry c.sym c.len := by
  have hcov := covers_iff.2 ⟨hlo, hhi⟩
  unfold tableSpec
  split
  case h_1 c' hfind =>
    have hcov' : c'.covers (maxLength ls) j = true := by simpa using List.find?_some hfind
    rw [code_covers_unique (List.mem_of_find?_eq_some hfind) hc hcov' hcov]
  case h_2 hfind => exact absurd hcov (List.find?_eq_none.1 hfind c hc)

theorem find?_covers_eq_none {ls : List Nat} {j : Nat}
    (h : ∀ c ∈ canonicalCodes ls, ¬(c.lo (maxLength ls) ≤ j ∧ j < c.hi (maxLength ls))) :
    (canonicalCodes ls).find? (fun c => c.covers (maxLength ls) j) = none :=
  List.find?_eq_none.2 fun c hc hcov => h c hc (covers_iff.1 hcov)

/-- A slot in no code's range is INVALID, but for the second slot of a degenerate code. -/
theorem tableSpec_of_not_mem_range {ls : List Nat} {j : Nat}
    (h : ∀ c ∈ canonicalCodes ls, ¬(c.lo (maxLength ls) ≤ j ∧ j < c.hi (maxLength ls)))
    (hd : ¬(degenerate ls = true ∧ j = 1)) : tableSpec ls j = .invalid := by
  have hd' : ¬(degenerate ls && decide (j = 1)) = true := by rwa [Bool.and_eq_true, decide_eq_true_eq]
  rw [tableSpec, find?_covers_eq_none h]
  exact if_neg hd'

/-- For a code that is not degenerate the valid slots are those below KSUM. -/
theorem tableSpec_ne_invalid_iff {ls : List Nat} (hd : degenerate ls = false) {j : Nat} :
    tableSpec ls j ≠ .invalid ↔ j < kraftSum ls := by
  rw [← exists_code_range_iff]
  constructor
  · intro hvalid
    by_contra hnone
    refine hvalid (tableSpec_of_not_mem_range (fun c hc hr => hnone ⟨c, hc, hr⟩) ?_)
    simp [hd]
  · rintro ⟨c, hc, hlo, hhi⟩
    rw [tableSpec_of_mem_range hc hlo hhi]
    exact nofun

/-- BUILD leaves the entries at `2^M` and above as they were (R74). -/
theorem read_expandTable_of_le {ls : List Nat} {j : Nat} (t : Memory Entry) (hk : kraftSum ls ≤ 2 ^ maxLength ls)
    (hj : 2 ^ maxLength ls ≤ j) :
    Memory.read unwrittenEntry (expandTable ls t) j = Memory.read unwrittenEntry t j := by
  have hd : ¬(degenerate ls = true ∧ j = 1) := by
    rintro ⟨hdeg, rfl⟩
    obtain ⟨s, hs, hl⟩ := degenerate_iff.1 hdeg
    rw [maxLength_of_ord_singleton hs, hl] at hj
    omega
  have hnone : ∀ c ∈ canonicalCodes ls, ¬(c.lo (maxLength ls) ≤ j ∧ j < c.hi (maxLength ls)) := fun c hc hr =>
    absurd (hr.2.trans_le (code_hi_le hk hc)) (Nat.not_lt.2 hj)
  rw [expandTable, read_fillDegenerate, if_neg hd, read_fanOut_of_find?_eq_none _ (find?_covers_eq_none hnone),
    Memory.read_fill, Nat.one_shiftLeft, if_neg fun hr => absurd hr.2 (Nat.not_lt.2 hj)]

/-! ### No coded symbol and one coded symbol (R77, R80) -/

theorem kraftSum_of_ord_nil {ls : List Nat} (h : ord ls = []) : kraftSum ls = 0 := by
  rw [← rangeSum_orderedCodes, orderedCodes, h]
  rfl

theorem kraftSum_of_ord_singleton {ls : List Nat} {s : Nat} (h : ord ls = [s]) : kraftSum ls = 1 := by
  rw [← rangeSum_orderedCodes, orderedCodes, h, maxLength_of_ord_singleton h]
  simp [rangeSum]

theorem canonicalCodes_of_ord_singleton {ls : List Nat} {s : Nat} (h : ord ls = [s]) :
    canonicalCodes ls = [⟨s, ls.getD s 0, 0⟩] := by
  simp only [canonicalCodes, orderedCodes, h, List.map_cons, List.map_nil, assignCodes, Nat.zero_shiftLeft]

/-- The code of a lone symbol is 0 and fills slot 0 alone; of its other slots only the degenerate code's is valid. -/
theorem tableSpec_of_ord_singleton {ls : List Nat} {s : Nat} (h : ord ls = [s]) (j : Nat) :
    tableSpec ls j =
      if j = 0 ∨ (ls.getD s 0 = 1 ∧ j = 1) then codeEntry s (ls.getD s 0) else .invalid := by
  have hdeg : degenerate ls = decide (ls.getD s 0 = 1) := by
    rw [Bool.eq_iff_iff, degenerate_iff, decide_eq_true_eq, h]
    simp
  simp only [tableSpec, canonicalCodes_of_ord_singleton h, hdeg, h, maxLength_of_ord_singleton h, Code.covers,
    List.find?_cons, List.find?_nil]
  by_cases h0 : j = 0
  · simp [h0]
  · by_cases h1 : ls.getD s 0 = 1 ∧ j = 1
    · simp [h1.1, h1.2, -List.getD_eq_getElem?_getD]
    · simp [h0, h1, -List.getD_eq_getElem?_getD]

/-! ### The obligations about the values BUILD computes -/

/-- Settles O29: the two halves of "largest", and a maximum that is not 0 is one of the lengths. -/
theorem maxLengthIsTheLargest : Obligations.MaxLengthIsTheLargest :=
  fun ls => ⟨fun _ => le_maxLength, maxLength_eq_zero_or_mem ls, maxLength_eq_zero, fun _ => maxLength_le⟩

/-- Settles O30: `OFFS[l]` counts the symbols of ORD of length below `l`, and these come first. -/
theorem prefixSumsAreBucketStarts : Obligations.PrefixSumsAreBucketStarts := by
  intro ls lmax hle
  have hsorted : (ord ls).Pairwise fun a b => ls.getD a 0 ≤ ls.getD b 0 := (ord_pairwise ls).imp fun h => by omega
  refine ⟨rfl, fun l hl => ?_, fun l _ k hk => ?_, ?_, offs_eq_length_ord hle⟩
  · rw [offs, if_neg (by omega), hist]
  · rw [offs_eq_countP_ord]
    exact getElem_lt_iff_lt_countP (f := fun s => ls.getD s 0) hsorted k hk
  · rw [offs_eq_length_ord hle, length_ord]

/-- Settles O31: membership in ORD and its order. -/
theorem ordIsTheCanonicalOrder : Obligations.OrdIsTheCanonicalOrder :=
  fun ls => ⟨fun _ => mem_ord, ord_pairwise ls, rfl⟩

/-- Settles O33: the walk begins with NEXT 0 and steps by `assignCodes_recurrence`. -/
theorem codeRecurrence : Obligations.CodeRecurrence := by
  refine fun ls => ⟨map_assignCodes _ _ _, fun c hc => ?_, assignCodes_recurrence (orderedCodes_walkable ls)⟩
  rw [code_of_head?_assignCodes hc, Nat.zero_shiftLeft]

/-- Settles O34: a code fits because its range ends at or below `2^M`, and the rest is uniqueness along ORD, the order of
the ranges, and their disjointness. -/
theorem codesAreCanonicalAndFreeOfPrefixes : Obligations.CodesAreCanonicalAndFreeOfPrefixes := by
  refine fun ls hk => ⟨fun c hc => code_lt hk hc, fun s hs hpos => ?_, fun a ha b hb => code_lt_of_sym_lt ha hb,
    fun a ha b hb => code_not_prefix ha hb⟩
  have hsym : s ∈ (canonicalCodes ls).map Code.sym := map_sym_canonicalCodes ls ▸ mem_ord.2 ⟨hs, hpos⟩
  obtain ⟨c, hc, rfl⟩ := List.mem_map.1 hsym
  exact ⟨c, hc, rfl, (mem_canonicalCodes hc).2, fun c' hc' h => code_eq_of_sym_eq hc' hc h⟩

/-- Settles O41: KSUM adds at most `2^(M-1)` for each symbol, and once the Kraft check passes every range ends at or below
`2^M`. -/
theorem workingValuesFitTheirWidths : Obligations.WorkingValuesFitTheirWidths := by
  intro ls hle hn
  have hM : maxLength ls ≤ 16 := maxLength_le hle
  have hslots : 2 ^ maxLength ls ≤ 2 ^ 16 := Nat.pow_le_pow_right (by omega) hM
  refine ⟨hM, ?_, by norm_num, fun l => List.count_le_length, fun l => ?_, ?_, fun hk c hc => ?_⟩
  · have hpow : 2 ^ (maxLength ls - 1) ≤ 2 ^ 15 := Nat.pow_le_pow_right (by omega) (by omega)
    exact (kraftSum_le ls).trans (Nat.mul_le_mul hn hpow)
  · rw [offs_eq_countP]
    exact List.countP_le_length
  · rw [length_ord]
    exact List.length_filter_le _ _
  · have hlt := code_lt hk hc
    have hlen := code_len_le hc
    have hcode : 2 ^ c.len ≤ 2 ^ maxLength ls := Nat.pow_le_pow_right (by omega) hlen
    have hhi := code_hi_le hk hc
    have hlo := code_lo_le_hi hc
    exact ⟨by omega, by omega, by omega, by omega, code_len_pos hc, by omega, by omega⟩

end Sys2Proof.Machine
end

section
/-! What BUILD answers and leaves (R66, R77 to R80): the state `State.built` of a successful BUILD read field by field; the
obligations about the command follow. -/

namespace Sys2Proof.Machine

/-! ### The state a successful BUILD leaves (R78) -/

/-- Below `2^M` the table of a successful BUILD is the one the lengths define. -/
theorem State.built_tableAt {s : State} {j : Nat} (hj : j < 2 ^ maxLength s.lengths) :
    s.built.tableAt j = tableSpec s.lengths j :=
  read_expandTable s.table hj

theorem State.built_tableAt_of_le {s : State} {j : Nat} (hk : kraftSum s.lengths ≤ 2 ^ maxLength s.lengths)
    (hj : 2 ^ maxLength s.lengths ≤ j) : s.built.tableAt j = s.tableAt j :=
  read_expandTable_of_le s.table hk hj

theorem State.built_complete (s : State) :
    s.built.complete = decide (kraftSum s.lengths = 2 ^ maxLength s.lengths) :=
  completeFlag_eq s.lengths

/-- MAXBITS holds `M`: every stored length is a 5-bit value (R19). -/
theorem State.toNat_built_maxBits (s : State) : s.built.maxBits.toNat = maxLength s.lengths := by
  have hM : maxLength s.lengths ≤ 31 := maxLength_le fun l hl => by
    obtain ⟨i, -, rfl⟩ := State.mem_lengths.1 hl
    exact Nat.le_of_lt_succ (s.lenAt i).isLt
  exact Nat.mod_eq_of_lt (Nat.lt_succ_of_le hM)

/-- COMPLETE stands above MAXBITS in the response of BUILD (R78). -/
theorem responseWord_buildData (c : Bool) (m : BitVec 5) :
    responseWord .ok (buildData c m) = BitVec.ofNat 32 (m.toNat + if c = true then 32 else 0) := by
  have hbits : (BitVec.ofBool c ++ m).toNat = m.toNat + if c = true then 32 else 0 := by
    rw [BitVec.toNat_append, ← Nat.shiftLeft_add_eq_or_of_lt m.isLt, Nat.add_comm]
    cases c <;> rfl
  rw [buildData, responseWord_ok_zext28 (by decide), hbits]

/-- BUILD of legal lengths that meet Kraft's inequality completes (R78). -/
theorem exec_build_of_kraft {s : State} (hl : s.lifecycle = .loading) (hn : s.nsym.toNat ≤ s.lenSize)
    (hle : ∀ l ∈ s.lengths, l ≤ s.params.lmax.toNat) (hk : kraftSum s.lengths ≤ 2 ^ maxLength s.lengths) :
    exec .build s = .next (s.built.setRsp (some (BitVec.ofNat 32
      (maxLength s.lengths + if kraftSum s.lengths = 2 ^ maxLength s.lengths then 32 else 0)))) := by
  have hbuild : exec .build s = _ := execBuild_of_kraft hl hn hle hk
  rw [hbuild, respond_eq, responseWord_buildData, State.toNat_built_maxBits, State.built_complete]
  simp only [decide_eq_true_eq]

/-! ### The obligations about BUILD -/

/-- Settles O22: the state check comes first. -/
theorem buildOnlyInLoading : Obligations.BuildOnlyInLoading :=
  fun _ => execBuild_of_not_loading

/-- Settles O23: BUILD ends in FAILED with NSYM and LEN kept, where BUILD and LOOKUP fail the state check. -/
theorem oversubscribedBuildFails : Obligations.OversubscribedBuildFails := by
  intro s hl hn hk
  refine ⟨_, execBuild_of_oversubscribed hl hn hk, rfl, execBuild_of_not_loading nofun,
    fun idx => execLookup_of_not_ready idx nofun, fun idx hidx => ?_⟩
  have hread : exec (.readLen idx) ((s.endBuild .failed 0 false).setRsp (some 0x60000000)) = _ :=
    execReadLen_of_lt_nsym hn hidx
  rw [hread, respond_eq, responseWord_ok_zext28 (by decide)]
  rfl

/-- Settles O24: the fields of `State.built`, whose table is written below `2^M` only. -/
theorem buildSucceeds : Obligations.BuildSucceeds := by
  intro s hl hn hle hk
  exact ⟨_, exec_build_of_kraft hl hn hle hk, rfl, s.toNat_built_maxBits, s.built_complete, rfl,
    fun j hj => State.built_tableAt_of_le hk hj⟩

/-- Settles O25: the table is `tableSpec`, which holds a code's entry inside the code's range and INVALID outside all
ranges; the walk makes the ranges contiguous, from slot 0 to KSUM. -/
theorem buildFillsTheCodesRanges : Obligations.BuildFillsTheCodesRanges := by
  intro s t hl hn hle hk h
  rw [exec_build_of_kraft hl hn hle hk] at h
  cases h
  obtain ⟨hfirst, hchain, hlast⟩ := assignCodes_contiguous (next := 0) (orderedCodes_walkable s.lengths)
  rw [Nat.zero_mul] at hfirst hlast
  rw [Nat.zero_add, rangeSum_orderedCodes] at hlast
  refine ⟨fun c hc j hlo hhi => ?_, fun j hj hnone hd => ?_, hfirst, hchain, hlast, fun hd j hj => ?_⟩
  · rw [State.setRsp_tableAt, State.built_tableAt (hhi.trans_le (code_hi_le hk hc)), tableSpec_of_mem_range hc hlo hhi]
    rfl
  · rw [State.setRsp_tableAt, State.built_tableAt hj, tableSpec_of_not_mem_range hnone hd]
  · rw [State.setRsp_tableAt, State.built_tableAt hj, tableSpec_ne_invalid_iff hd]

/-- The only symbol with a nonzero length is all of ORD. -/
theorem State.ord_lengths_of_single {s : State} {i l : Nat} (hi : i < s.nsym.toNat) (hl : 0 < l)
    (h : ∀ k, k < s.nsym.toNat → (s.lenAt k).toNat = if k = i then l else 0) : ord s.lengths = [i] := by
  refine List.perm_singleton.1 ((List.perm_ext_iff_of_nodup (ord_nodup _) (List.nodup_singleton i)).2 fun k => ?_)
  rw [mem_ord, State.length_lengths, List.mem_singleton]
  constructor
  · rintro ⟨hk, hpos⟩
    by_contra hne
    rw [State.getD_lengths hk, h k hk, if_neg hne] at hpos
    exact absurd hpos (lt_irrefl 0)
  · rintro rfl
    rw [State.getD_lengths hi, h k hi, if_pos rfl]
    exact ⟨hi, hl⟩

/-- Settles O27: ORD is `[i]`, so `M` is `l`, KSUM is 1, and the table is that of a lone symbol. -/
theorem singleSymbolCodes : Obligations.SingleSymbolCodes := by
  intro s i l hl hn hle hi hpos hlen
  have hord := State.ord_lengths_of_single hi hpos hlen
  have hget : s.lengths.getD i 0 = l := by rw [State.getD_lengths hi, hlen i hi, if_pos rfl]
  have hM : maxLength s.lengths = l := by rw [maxLength_of_ord_singleton hord, hget]
  have hsum := kraftSum_of_ord_singleton hord
  have htwo : 2 ≤ 2 ^ l := Nat.le_self_pow hpos.ne' 2
  have htable : ∀ j < 2 ^ l, s.built.tableAt j = if j = 0 ∨ (l = 1 ∧ j = 1) then codeEntry i l else .invalid := by
    intro j hj
    rw [State.built_tableAt (by rwa [hM]), tableSpec_of_ord_singleton hord, hget]
  refine ⟨_, exec_build_of_kraft hl hn hle (by rw [hM]; omega), rfl, s.toNat_built_maxBits.trans hM, ?_, ?_, ?_, ?_⟩
  · have hcomplete := s.built_complete
    rw [hM, hsum, decide_eq_false (by omega)] at hcomplete
    exact hcomplete
  · rw [State.setRsp_rsp, hM, hsum, if_neg (by omega), Nat.add_zero]
  · rintro rfl
    exact ⟨htable 0 (by decide), htable 1 (by decide)⟩
  · intro h2
    refine ⟨htable 0 (by omega), fun j hj hj' => ?_⟩
    rw [State.setRsp_tableAt, htable j hj', if_neg (by omega)]

/-- Settles O28: ORD is empty, so KSUM is 0, below `2^0`, and the one slot begins with no code. -/
theorem emptyInputBuildsOneInvalidSlot : Obligations.EmptyInputBuildsOneInvalidSlot := by
  intro s hl hn hzero
  have hlen : ∀ l ∈ s.lengths, l = 0 := by
    intro l hmem
    obtain ⟨i, hi, rfl⟩ := State.mem_lengths.1 hmem
    rw [hzero i hi]
    rfl
  have hM : maxLength s.lengths = 0 := maxLength_eq_zero hlen
  have hord : ord s.lengths = [] := List.eq_nil_iff_forall_not_mem.2 fun i hi => by
    have hle := getD_le_maxLength s.lengths i
    have hpos := (mem_ord.1 hi).2
    omega
  have hsum := kraftSum_of_ord_nil hord
  refine ⟨hM, hord, (ksum_eq_kraftSum _).trans hsum, _,
    exec_build_of_kraft hl hn (fun l hmem => (hlen l hmem).trans_le (Nat.zero_le _)) (hsum.trans_le (Nat.zero_le _)),
    rfl, BitVec.eq_of_toNat_eq (s.toNat_built_maxBits.trans hM), ?_, ?_, ?_⟩
  · have hcomplete := s.built_complete
    rw [hM, hsum] at hcomplete
    exact hcomplete
  · rw [State.setRsp_rsp, hM, hsum]
    rfl
  · rw [State.setRsp_tableAt, State.built_tableAt (by simp)]
    obtain hinv | ⟨i, hi, -⟩ := tableSpec_cases s.lengths 0
    · exact hinv
    · rw [hord] at hi
      exact absurd hi List.not_mem_nil

end Sys2Proof.Machine
end

section
/-! What LOOKUP answers for an index of the built table, as the number of the entry's 22-bit pattern (R23, R85, R87); the
obligation on the command follows. -/

namespace Sys2Proof.Machine

/-- In READY, an index below `2^MAXBITS` is answered with the entry's pattern, zero-extended (R85). -/
theorem exec_lookup_of_inTable {s : State} {idx : BitVec 16} (hl : s.lifecycle = .ready)
    (hm : s.maxBits.toNat ≤ s.params.lmax.toNat) (hidx : idx.toNat < 2 ^ s.maxBits.toNat) :
    exec (.lookup idx) s = .next (s.setRsp (some (BitVec.ofNat 32 (s.tableAt idx.toNat).bits.toNat))) := by
  have hlookup : exec (.lookup idx) s = _ := execLookup_of_inTable hl hm hidx
  rw [hlookup, respond_eq, responseWord_ok_zext28 (by decide)]

/-- Settles O19: the encoding is `decode_of_opcode`, the refusals are those of `execLookup` in their order, and the answer
is 0 for the pattern of INVALID and `Entry.toNat_bits_valid` for that of a valid entry. -/
theorem lookupReadsOneEntry : Obligations.LookupReadsOneEntry := by
  refine ⟨fun w hop => decode_of_opcode (i := .lookup 0) hop, fun s idx => ⟨?badState, ?indexRange, ?entry⟩⟩
  case badState => exact execLookup_of_not_ready idx
  case indexRange => exact execLookup_of_maxBits_le
  case entry =>
    intro hl hm hidx
    rw [exec_lookup_of_inTable hl hm hidx]
    refine ⟨fun hinvalid => ?_, fun sym len hvalid => ?_⟩
    · rw [hinvalid]
      rfl
    · rw [hvalid, Entry.toNat_bits_valid]
      rfl

end Sys2Proof.Machine
end

section
/-! SUPPORT. What the host cannot see stays unseen: from states that differ only in entries no command can read (R21, R22,
U6, U7), every command, every step and every run leads to outcomes that differ only there. -/

namespace Sys2Proof.Machine

/-! ### Outcomes the host cannot tell apart -/

/-- A choice made on what the host can see leads to outcomes it cannot tell apart if each branch does. -/
theorem sameOutcome_ite {c : Prop} [Decidable c] {x y x' y' : Host.Outcome State Fault Refusal}
    (hpos : c → sameOutcome x x') (hneg : ¬c → sameOutcome y y') :
    sameOutcome (if c then x else y) (if c then x' else y') := by
  by_cases hc : c
  · rw [if_pos hc, if_pos hc]
    exact hpos hc
  · rw [if_neg hc, if_neg hc]
    exact hneg hc

namespace SameToHost

variable {a b : State}

/-! ### What the two states have in common -/

theorem lenSize_eq (h : SameToHost a b) : a.lenSize = b.lenSize := by rw [State.lenSize, State.lenSize, h.params]

theorem tableSize_eq (h : SameToHost a b) : a.tableSize = b.tableSize := by rw [State.tableSize, State.tableSize, h.params]

theorem lengths_eq (h : SameToHost a b) : a.lengths = b.lengths := State.lengths_congr h.nsym h.len

theorem readLen_eq (h : SameToHost a b) {i : Nat} (hi : i < a.nsym.toNat) : a.readLen i = b.readLen i := by
  rw [State.readLen, State.readLen, h.lenSize_eq, h.len i hi]

theorem readLengths_eq (h : SameToHost a b) : a.readLengths = b.readLengths := by
  rw [State.readLengths, State.readLengths, h.lenSize_eq, h.lengths_eq, h.nsym]

theorem inTable_eq (h : SameToHost a b) (idx : BitVec 16) : a.inTable idx = b.inTable idx := by
  rw [State.inTable, State.inTable, h.maxBits]

theorem readTable_eq (h : SameToHost a b) (hl : a.lifecycle = .ready) {j : Nat} (hj : j < 2 ^ a.maxBits.toNat) :
    a.readTable j = b.readTable j := by
  rw [State.readTable, State.readTable, h.tableSize_eq, h.table hl j hj]

theorem statusReg_value_eq (h : SameToHost a b) (r : StatusReg) : r.value a = r.value b := by
  cases r with
  | status => rw [StatusReg.value, StatusReg.value, h.complete, h.lifecycle]
  | nsym => rw [StatusReg.value, StatusReg.value, h.nsym]
  | maxBits => rw [StatusReg.value, StatusReg.value, h.maxBits]
  | params => rw [StatusReg.value, StatusReg.value, h.params]

/-! ### The operations keep the relation -/

theorem setRsp (h : SameToHost a b) (r : Option Word) : SameToHost (a.setRsp r) (b.setRsp r) := { h with rsp := rfl }

theorem setEdges (h : SameToHost a b) (es : List HostEdge) : SameToHost (a.setEdges es) (b.setEdges es) :=
  { h with edges := rfl }

theorem respond (h : SameToHost a b) (rc : ResultCode) (d : Data) : SameToHost (respond rc d a) (respond rc d b) :=
  h.setRsp _

theorem raise (h : SameToHost a b) (e : ResultCode) : sameOutcome (raise e a) (raise e b) := h.respond e 0

theorem transferResponse (h : SameToHost a b) (w : Word) : SameToHost (a.transferResponse w) (b.transferResponse w) :=
  { h with
    rsp := rfl
    sent := congrArg (· ++ [w]) h.sent }

/-- With NSYM 0 and STATE not READY no entry of LEN or TABLE is readable: what the memories hold does not matter. -/
theorem of_no_readable_entry (hn : a.nsym = 0) (hl : a.lifecycle ≠ .ready)
    (hb : b = { a with len := b.len, table := b.table }) : SameToHost a b := by
  rw [hb]
  refine ⟨rfl, rfl, rfl, rfl, rfl, fun i hi => ?_, fun hready => absurd hready hl, rfl, rfl, rfl⟩
  rw [hn] at hi
  exact absurd hi (Nat.not_lt_zero i)

theorem applyReset (h : SameToHost a b) : SameToHost a.applyReset b.applyReset := by
  have heq : b.applyReset = a.applyReset := by
    rw [State.applyReset, State.applyReset, h.params, h.edges, h.sent]
  exact of_no_readable_entry rfl nofun heq

theorem cleared (h : SameToHost a b) :
    SameToHost ((((a.setLifecycle .loading).setNsym 0).setMaxBits 0).setComplete false)
      ((((b.setLifecycle .loading).setNsym 0).setMaxBits 0).setComplete false) :=
  { h with
    lifecycle := rfl
    complete := rfl
    nsym := rfl
    maxBits := rfl
    len := fun i hi => absurd hi (Nat.not_lt_zero i)
    table := nofun }

theorem pushed (h : SameToHost a b) (clen : BitVec 5) (hn : a.nsym.toNat < a.lenSize) :
    SameToHost (a.pushed clen) (b.pushed clen) :=
  { h with
    nsym := congrArg (· + 1) h.nsym
    len := fun i hi => by
      rw [State.toNat_pushed_nsym clen hn] at hi
      rw [State.pushed_lenAt, State.pushed_lenAt, ← h.nsym]
      by_cases hi' : i = a.nsym.toNat
      · rw [if_pos hi', if_pos hi']
      · rw [if_neg hi', if_neg hi', h.len i (by omega)] }

theorem endBuild_failed (h : SameToHost a b) : SameToHost (a.endBuild .failed 0 false) (b.endBuild .failed 0 false) :=
  { h with
    lifecycle := rfl
    complete := rfl
    maxBits := rfl
    table := nofun }

/-- Below `2^M` both tables are the one the common lengths define. -/
theorem built (h : SameToHost a b) : SameToHost a.built b.built where
  params := h.params
  lifecycle := rfl
  complete := by rw [State.built_complete, State.built_complete, h.lengths_eq]
  nsym := h.nsym
  maxBits := congrArg (fun ls => BitVec.ofNat 5 (maxLength ls)) h.lengths_eq
  len := h.len
  table _ j hj := by
    rw [State.toNat_built_maxBits] at hj
    rw [State.built_tableAt hj, State.built_tableAt (h.lengths_eq ▸ hj), h.lengths_eq]
  rsp := h.rsp
  edges := h.edges
  sent := h.sent

/-! ### Every command keeps the relation -/

theorem execPushLen (h : SameToHost a b) (clen : BitVec 5) : sameOutcome (execPushLen clen a) (execPushLen clen b) := by
  rw [Machine.execPushLen, Machine.execPushLen, ← h.lifecycle, ← h.params, ← h.nsym]
  refine sameOutcome_ite (fun _ => h.raise _) fun _ => sameOutcome_ite (fun _ => h.raise _) fun _ =>
    sameOutcome_ite (fun _ => h.raise _) fun _ => ?_
  rw [State.writeLen, State.writeLen, ← h.lenSize_eq]
  by_cases hn : a.nsym.toNat < a.lenSize
  · rw [if_pos hn, if_pos hn]
    have hpushed := (h.pushed clen hn).respond .ok (zext28 (a.nsym + 1))
    rwa [State.pushed, State.pushed, ← h.nsym] at hpushed
  · rw [if_neg hn, if_neg hn]
    rfl

theorem execReadLen (h : SameToHost a b) (idx : BitVec 16) : sameOutcome (execReadLen idx a) (execReadLen idx b) := by
  rw [Machine.execReadLen, Machine.execReadLen, ← h.nsym]
  refine sameOutcome_ite (fun _ => h.raise _) fun hidx => ?_
  rw [← h.readLen_eq (BitVec.lt_def.1 (BitVec.not_le.1 hidx))]
  cases a.readLen idx.toNat with
  | none => rfl
  | some v => exact h.respond _ _

theorem execLookup (h : SameToHost a b) (idx : BitVec 16) : sameOutcome (execLookup idx a) (execLookup idx b) := by
  rw [Machine.execLookup, Machine.execLookup, ← h.lifecycle, ← h.inTable_eq]
  refine sameOutcome_ite (fun _ => h.raise _) fun hl => sameOutcome_ite (fun _ => h.raise _) fun hidx => ?_
  rw [Bool.not_eq_true', Bool.not_eq_false, State.inTable_iff] at hidx
  rw [← h.readTable_eq (not_not.1 hl) hidx]
  cases a.readTable idx.toNat with
  | none => rfl
  | some e => exact h.respond _ _

theorem execReadReg (h : SameToHost a b) (reg : BitVec 4) : sameOutcome (execReadReg reg a) (execReadReg reg b) := by
  rw [Machine.execReadReg, Machine.execReadReg]
  cases statusReg? reg with
  | none => exact h.raise _
  | some r =>
    simp only
    rw [← h.statusReg_value_eq r]
    exact h.respond _ _

theorem buildFrom_lengths (h : SameToHost a b) : sameOutcome (buildFrom a.lengths a) (buildFrom a.lengths b) := by
  refine sameOutcome_ite (fun _ => h.endBuild_failed.respond _ _) fun _ => ?_
  rw [State.writeTable, State.writeTable, ← h.tableSize_eq]
  by_cases hsize : 1 <<< maxLength a.lengths ≤ a.tableSize
  · rw [if_pos hsize, if_pos hsize]
    have hbuilt := h.built.respond .ok (buildData a.built.complete a.built.maxBits)
    rwa [State.built, State.built, ← h.lengths_eq] at hbuilt
  · rw [if_neg hsize, if_neg hsize]
    rfl

theorem execBuild (h : SameToHost a b) : sameOutcome (execBuild a) (execBuild b) := by
  rw [Machine.execBuild, Machine.execBuild, ← h.lifecycle, ← h.readLengths_eq, ← h.lenSize_eq]
  refine sameOutcome_ite (fun _ => h.raise _) fun _ => ?_
  cases hls : a.readLengths with
  | none => rfl
  | some ls =>
    obtain ⟨-, rfl⟩ := State.readLengths_eq_some.1 hls
    exact h.buildFrom_lengths

theorem exec (h : SameToHost a b) (i : Instr) : sameOutcome (exec i a) (exec i b) := by
  cases i with
  | clear => exact h.cleared.respond .ok 0
  | pushLen clen => exact h.execPushLen clen
  | build => exact h.execBuild
  | lookup idx => exact h.execLookup idx
  | readLen idx => exact h.execReadLen idx
  | readReg reg => exact h.execReadReg reg

/-! ### Every step and every run keeps the relation -/

theorem runCommandWord (h : SameToHost a b) (w : Word) : sameOutcome (runCommandWord w a) (runCommandWord w b) := by
  rw [Machine.runCommandWord, Machine.runCommandWord]
  cases decode w with
  | ok i => exact h.exec i
  | error e => exact h.raise _

theorem clockEdge (h : SameToHost a b) (e : HostEdge) : sameOutcome (clockEdge e a) (clockEdge e b) := by
  have htaken : responseTaken a e = responseTaken b e := by rw [responseTaken, responseTaken, h.rsp]
  have haccepted : commandAccepted a e = commandAccepted b e := by
    rw [commandAccepted, commandAccepted, cmdReady, cmdReady, h.rsp]
  refine sameOutcome_ite (fun _ => h.applyReset) fun _ => ?_
  rw [← htaken, ← haccepted]
  cases responseTaken a e with
  | some w => exact h.transferResponse w
  | none =>
    cases commandAccepted a e with
    | some w => exact h.runCommandWord w
    | none => exact h

theorem step (h : SameToHost a b) : sameOutcome (step a) (step b) := by
  rw [Machine.step, Machine.step, nextEdge, nextEdge, ← h.edges]
  cases a.edges with
  | nil => exact h
  | cons e rest => exact (h.setEdges rest).clockEdge e

theorem run (n : Nat) : ∀ {a b : State}, SameToHost a b → sameOutcome (core.run n a) (core.run n b) := by
  induction n with
  | zero => exact fun h => h
  | succ n ih =>
    intro a b h
    have hstep : sameOutcome (core.step a) (core.step b) := h.step
    simp only [Host.Core.run]
    revert hstep
    cases core.step a <;> cases core.step b <;> intro hstep
    case next.next => exact ih hstep
    case fault.fault => exact hstep
    case refused.refused => exact hstep
    all_goals exact False.elim hstep

end SameToHost

end Sys2Proof.Machine
end

section
/-! The control commands: what READ_REG answers for each register, and the obligations on CLEAR and READ_REG; a block just
cleared and a block just reset are the same to the host. -/

namespace Sys2Proof.Machine

/-! ### What READ_REG answers (R91) -/

/-- The numbers from 4 on are unassigned (R24, R53). -/
theorem statusReg?_eq_none {reg : BitVec 4} (h : 4 ≤ reg.toNat) : statusReg? reg = none := by
  revert reg
  decide

/-- An assigned register is answered with its bits as a number. -/
theorem exec_readReg_of_value {s : State} {reg : BitVec 4} {r : StatusReg} {n : Nat} {v : BitVec n} (hn : n ≤ 28)
    (hreg : statusReg? reg = some r) (hv : r.value s = zext28 v) :
    exec (.readReg reg) s = .next (s.setRsp (some (BitVec.ofNat 32 v.toNat))) := by
  rw [exec, execReadReg, hreg]
  simp only
  rw [hv, respond_eq, responseWord_ok_zext28 hn]

theorem exec_readReg_of_unassigned {s : State} {reg : BitVec 4} (h : 4 ≤ reg.toNat) :
    exec (.readReg reg) s = .next (s.setRsp (some 0x10000000)) := by
  rw [exec, execReadReg, statusReg?_eq_none h]
  simp only
  rw [raise_eq, responseWord_illegal]

/-- COMPLETE stands in bit 2 above STATE (R24). -/
theorem toNat_statusBits (c : Bool) (l : Lifecycle) :
    (BitVec.ofBool c ++ l.code).toNat =
      (if c then 4 else 0) + match l with | .loading => 0 | .ready => 1 | .failed => 2 := by
  cases c <;> cases l <;> rfl

/-- P_LMAX stands in bits 20:16 above P_NSYM_MAX (R20). -/
theorem toNat_paramsBits (c : Config) : (paramsBits c).toNat = c.lmax.toNat * 2 ^ 16 + c.nsymMax.toNat := by
  rw [paramsBits, BitVec.toNat_append, ← Nat.shiftLeft_add_eq_or_of_lt c.nsymMax.isLt, Nat.shiftLeft_eq]

/-! ### The obligations -/

/-- Settles O16: the encoding is `decode_of_opcode`; CLEAR leaves NSYM 0 and STATE not READY, so READ_LEN and LOOKUP refuse
every index; and outside LOADING every other command writes the response port only. -/
theorem clearStartsANewConstruction : Obligations.ClearStartsANewConstruction := by
  refine ⟨fun w hop => decode_of_opcode (i := .clear) hop, fun s => ⟨_, rfl, rfl, fun idx => ?_, fun idx => ?_, ?_⟩⟩
  · exact execReadLen_of_nsym_le (Nat.zero_le _)
  · exact execLookup_of_not_ready idx nofun
  · intro i u hl hexec hchanged
    by_contra hi
    obtain ⟨-, -, hframe⟩ := onlyClearDiscardsWhatIsHeld i s u hi hexec
    have hkept : u.lifecycle = _ := congrArg State.lifecycle (hframe hl)
    exact hchanged hkept

/-- Settles O21: the encoding is `decode_of_opcode`, the answers are the registers' bits as numbers, and the invariant has
MAXBITS 0 where there is no table. -/
theorem readRegReadsOneRegister : Obligations.ReadRegReadsOneRegister := by
  have maxBits : ∀ s : State, exec (.readReg 2) s = .next (s.setRsp (some (BitVec.ofNat 32 s.maxBits.toNat))) :=
    fun s => exec_readReg_of_value (by decide) rfl rfl
  refine ⟨fun w hop => decode_of_opcode (i := .readReg 0) hop, fun s =>
    ⟨?status, ?nsym, maxBits s, ?params, fun _ => exec_readReg_of_unassigned, ?noTable⟩⟩
  case status =>
    rw [exec_readReg_of_value (by decide) rfl rfl, toNat_statusBits]
    rfl
  case nsym => exact exec_readReg_of_value (by decide) rfl rfl
  case params =>
    rw [exec_readReg_of_value (by decide) rfl rfl, toNat_paramsBits]
    rfl
  case noTable =>
    intro hs hl
    obtain ⟨hzero, -⟩ := hs.no_table hl
    have hread := maxBits s
    rwa [hzero] at hread

/-- Settles O53: after CLEAR as after reset no entry of LEN or TABLE is readable and everything else is equal, and what the
host cannot tell apart stays so in every run. -/
theorem clearedBlockIsLikeAResetBlock : Obligations.ClearedBlockIsLikeAResetBlock :=
  fun _ _ => ⟨_, rfl, fun n => SameToHost.run n (.of_no_readable_entry rfl nofun rfl)⟩

end Sys2Proof.Machine
end

section
/-! What the result code of a response says about the command that gave it (R48, R94 to R96): every answer is OK, a refusal
for one of the command's causes, or the failed BUILD's; the obligations about errors follow. -/

namespace Sys2Proof.Machine

/-! ### The result code of a response (R47, R48) -/

theorem ResultCode.code_eq_zero_iff {rc : ResultCode} : rc.code = 0 ↔ rc = .ok := by
  cases rc <;> decide

theorem ResultCode.code_eq_six_iff {rc : ResultCode} : rc.code = 6 ↔ rc = .oversubscribed := by
  cases rc <;> decide

/-- The fields of the response word read off the port are those answered. -/
theorem fields_of_respond_rsp {rc : ResultCode} {d : Data} {u : State} {w : Word} (hw : (respond rc d u).rsp = some w) :
    w.extractLsb' 28 4 = rc.code ∧ w.extractLsb' 0 28 = d := by
  obtain rfl : responseWord rc d = w := Option.some.inj hw
  exact ⟨rcField_responseWord rc d, dataField_responseWord rc d⟩

/-! ### The kinds of answers (R96) -/

/-- OK is in every command's row (R96). -/
theorem mayAnswer_ok (i : Instr) (s : State) : mayAnswer i s .ok := by
  cases i with
  | clear => rfl
  | _ => exact .inl rfl

/-- A register number that names no register is 4 or above (R24). -/
theorem four_le_of_statusReg?_eq_none {reg : BitVec 4} (h : statusReg? reg = none) : 4 ≤ reg.toNat := by
  revert reg
  decide

/-- A refusal: one of the codes ILLEGAL to INDEX_RANGE, for a cause in the command's row, written to the response port
without data and with nothing else changed (R94, R96). -/
def Refused (i : Instr) (s t : State) : Prop :=
  ∃ rc, rc ≠ .ok ∧ rc ≠ .oversubscribed ∧ mayAnswer i s rc ∧ t = respond rc 0 s

/-- An executed command answers OK or is refused, or it is a BUILD of over-subscribed lengths, which ends in FAILED. -/
theorem exec_answer_cases {i : Instr} {s t : State} (h : exec i s = .next t) :
    (∃ d u, t = respond .ok d u) ∨ Refused i s t ∨
    (i = .build ∧ 2 ^ maxLength s.lengths < kraftSum s.lengths ∧
      t = respond .oversubscribed 0 (s.endBuild .failed 0 false)) := by
  cases i with
  | clear => exact .inl ⟨_, _, (Host.Outcome.next.inj h).symm⟩
  | pushLen clen =>
    obtain ⟨hl, ht⟩ | ⟨-, hn, ht⟩ | ⟨-, -, hc, ht⟩ | ⟨-, -, -, ht⟩ := execPushLen_cases h
    · exact .inr (.inl ⟨.badState, nofun, nofun, .inr (.inl ⟨rfl, hl⟩), ht⟩)
    · exact .inr (.inl ⟨.capacity, nofun, nofun, .inr (.inr (.inl ⟨rfl, hn⟩)), ht⟩)
    · exact .inr (.inl ⟨.lengthRange, nofun, nofun, .inr (.inr (.inr ⟨rfl, BitVec.lt_def.1 hc⟩)), ht⟩)
    · exact .inl ⟨_, _, ht⟩
  | build =>
    obtain ⟨hl, ht⟩ | ⟨-, -, hk, ht⟩ | ⟨-, -, -, -, ht⟩ := execBuild_cases h
    · exact .inr (.inl ⟨.badState, nofun, nofun, .inr (.inl ⟨rfl, hl⟩), ht⟩)
    · exact .inr (.inr ⟨rfl, (overSubscribed_iff _).1 hk, ht⟩)
    · exact .inl ⟨_, _, ht⟩
  | lookup idx =>
    obtain ⟨hl, ht⟩ | ⟨-, hout, ht⟩ | ⟨-, -, -, ht⟩ := execLookup_cases h
    · exact .inr (.inl ⟨.badState, nofun, nofun, .inr (.inl ⟨rfl, hl⟩), ht⟩)
    · rw [← Bool.not_eq_true, State.inTable_iff, Nat.not_lt] at hout
      exact .inr (.inl ⟨.indexRange, nofun, nofun, .inr (.inr ⟨rfl, hout⟩), ht⟩)
    · exact .inl ⟨_, _, ht⟩
  | readLen idx =>
    obtain ⟨hn, ht⟩ | ⟨-, -, ht⟩ := execReadLen_cases h
    · exact .inr (.inl ⟨.indexRange, nofun, nofun, .inr ⟨rfl, BitVec.le_def.1 hn⟩, ht⟩)
    · exact .inl ⟨_, _, ht⟩
  | readReg reg =>
    obtain ⟨hreg, ht⟩ | ⟨r, -, ht⟩ := execReadReg_cases h
    · exact .inr (.inl ⟨.illegal, nofun, nofun, .inr ⟨rfl, four_le_of_statusReg?_eq_none hreg⟩, ht⟩)
    · exact .inl ⟨_, _, ht⟩

/-! ### No command reads the response port -/

theorem State.writeLen_setRsp (s : State) (r : Option Word) (i : Nat) (v : BitVec 5) :
    (s.setRsp r).writeLen i v = (s.writeLen i v).map (·.setRsp r) := by
  unfold State.writeLen
  rw [apply_ite (Option.map (State.setRsp · r))]
  rfl

theorem State.writeTable_setRsp (s : State) (r : Option Word) (ls : List Nat) :
    (s.setRsp r).writeTable ls = (s.writeTable ls).map (·.setRsp r) := by
  unfold State.writeTable
  rw [apply_ite (Option.map (State.setRsp · r))]
  rfl

theorem execPushLen_setRsp (clen : BitVec 5) (s : State) (r : Option Word) :
    execPushLen clen (s.setRsp r) = execPushLen clen s := by
  unfold execPushLen
  rw [State.setRsp_nsym, State.writeLen_setRsp]
  cases s.writeLen s.nsym.toNat clen <;> rfl

theorem buildFrom_setRsp (ls : List Nat) (s : State) (r : Option Word) : buildFrom ls (s.setRsp r) = buildFrom ls s := by
  unfold buildFrom
  rw [State.writeTable_setRsp]
  cases s.writeTable ls <;> rfl

theorem execBuild_setRsp (s : State) (r : Option Word) : execBuild (s.setRsp r) = execBuild s := by
  have hread : (s.setRsp r).readLengths = s.readLengths := rfl
  unfold execBuild
  rw [hread]
  cases s.readLengths with
  | none => rfl
  | some ls =>
    simp only [buildFrom_setRsp]
    rfl

/-- What the response port holds has no effect on a command (R45). -/
theorem exec_setRsp (k : Instr) (s : State) (r : Option Word) : exec k (s.setRsp r) = exec k s := by
  cases k with
  | pushLen clen => exact execPushLen_setRsp clen s r
  | build => exact execBuild_setRsp s r
  | _ => rfl

/-! ### The response of BUILD depends on the lengths only (R95) -/

/-- The response to a BUILD of the lengths `ls` (R78, R79). -/
def buildResponse (ls : List Nat) : Word :=
  if overSubscribed (ksum ls) (maxLength ls) then responseWord .oversubscribed 0
  else responseWord .ok (buildData (completeFlag (ksum ls) (maxLength ls)) (BitVec.ofNat 5 (maxLength ls)))

theorem execBuild_rsp {s t : State} (hl : s.lifecycle = .loading) (h : execBuild s = .next t) :
    t.rsp = some (buildResponse s.lengths) := by
  unfold buildResponse
  obtain ⟨hne, -⟩ | ⟨-, -, hk, rfl⟩ | ⟨-, -, hk, -, rfl⟩ := execBuild_cases h
  · exact absurd hl hne
  · rw [if_pos hk]
    rfl
  · rw [if_neg (Bool.eq_false_iff.1 hk)]
    rfl

/-! ### The obligations -/

/-- Settles O42: codes 1 to 5 are those of a refusal, which writes the response port only, and no command reads that. -/
theorem refusedCommandsArePrecise : Obligations.RefusedCommandsArePrecise := by
  intro i s t w h hw hlow hhigh
  obtain ⟨d, u, rfl⟩ | ⟨rc, -, -, -, rfl⟩ | ⟨-, -, rfl⟩ := exec_answer_cases h
  · rw [(fields_of_respond_rsp hw).1] at hlow
    exact absurd hlow (by decide)
  · exact ⟨rfl, fun k => exec_setRsp k s _⟩
  · rw [(fields_of_respond_rsp hw).1] at hhigh
    exact absurd hhigh (by decide)

/-- Settles O43: of the kinds of answers only the failed BUILD's has code 6, and only OK's and its own change more than the
response port; what BUILD answers in LOADING is `buildResponse` of the lengths. -/
theorem oversubscribedIsTheOnlyErrorWithEffect : Obligations.OversubscribedIsTheOnlyErrorWithEffect := by
  refine ⟨fun i s t w h hw => ?_, fun a b t u ha hb hlengths hta hub => ?_⟩
  · obtain ⟨d, u, rfl⟩ | ⟨rc, -, hover, -, rfl⟩ | ⟨hi, hk, rfl⟩ := exec_answer_cases h <;>
      obtain ⟨hcode, hdata⟩ := fields_of_respond_rsp hw <;> rw [hcode]
    · exact ⟨nofun, fun hne => absurd rfl hne⟩
    · exact ⟨fun hsix => absurd (ResultCode.code_eq_six_iff.1 hsix) hover, fun _ hchanged => absurd rfl hchanged⟩
    · exact ⟨fun _ => ⟨hi, hk, hdata, rfl⟩, fun _ _ => rfl⟩
  · rw [execBuild_rsp ha hta, execBuild_rsp hb hub, hlengths]

/-- Settles O44: each kind of answer has a code of the command's row with its cause, and data 0 but for OK; a word outside
the map does not decode. -/
theorem resultCodesOfEachCommand : Obligations.ResultCodesOfEachCommand := by
  refine ⟨fun i s t h => ?_, fun w s hw => ?_⟩
  · obtain ⟨d, u, rfl⟩ | ⟨rc, -, -, hcause, rfl⟩ | ⟨rfl, hk, rfl⟩ := exec_answer_cases h
    · exact ⟨_, _, rfl, mayAnswer_ok i s, fun hne => absurd rfl hne⟩
    · exact ⟨_, _, rfl, hcause, fun _ => rfl⟩
    · exact ⟨_, _, rfl, .inr (.inr ⟨rfl, hk⟩), fun _ => rfl⟩
  · rw [← Bool.not_eq_true, Laws.commandWordWf_iff] at hw
    obtain ⟨-, hillegal⟩ | ⟨i, hi, -⟩ := runCommandWord_cases w s
    · rw [hillegal, respond_eq, responseWord_illegal]
      rfl
    · exact absurd ⟨i, hi⟩ hw

end Sys2Proof.Machine
end

section
/-! Encoding gives a decoded word back: a word of the opcode map is its match bits and its operand; the remaining
obligations on encoding. -/

namespace Sys2Proof.Laws

/-- A word is its bits from `k` up and its low `k` bits. -/
theorem and_mask_or_low (w : Word) (k : Nat) :
    w &&& BitVec.allOnes 32 <<< k ||| (w.extractLsb' 0 k).setWidth 32 = w := by
  apply BitVec.eq_of_getLsbD_eq
  intro j hj
  rw [BitVec.getLsbD_or, getLsbD_and_mask w k hj]
  by_cases hlow : j < k
  · simp [hlow, hj, Nat.not_le.2 hlow]
  · simp [Nat.not_lt.1 hlow]

/-- A command with a word's operand is encoded as the row's match bits over the word's low bits (R46, R49). -/
theorem encode_withOperandOf (w : Word) (i : Instr) :
    encode (withOperandOf w i) = i.row.value ||| (w.extractLsb' 0 (operandWidth i)).setWidth 32 := by
  cases i with
  | clear => simp [encode, withOperandOf, Instr.row, operandWidth]
  | build => simp [encode, withOperandOf, Instr.row, operandWidth]
  | _ => rfl

/-- The encoder is the decoder's inverse on the words that decode. -/
theorem encode_of_decode {w : Word} {i : Instr} (h : decode w = .ok i) : encode i = w := by
  have hspells := spells_of_decode h
  have hi : withOperandOf w i = i := Except.ok.inj ((decode_of_spells hspells).symm.trans h)
  have hvalue : w &&& BitVec.allOnes 32 <<< operandWidth i = i.row.value := by
    rw [row_eq] at hspells ⊢
    exact of_decide_eq_true hspells
  have hencode := encode_withOperandOf w i
  rwa [hi, ← hvalue, and_mask_or_low] at hencode

/-- A word with a reserved opcode does not decode (R55). -/
theorem decode_of_reserved_opcode {w : Word} (hop : opField w = 0x0 ∨ 0x7 ≤ opField w) :
    ∃ e, decode w = .error e := by
  cases hd : decode w with
  | error e => exact ⟨e, rfl⟩
  | ok i =>
    obtain ⟨hi, -⟩ := fields_of_decode hd
    exact absurd (hi ▸ hop) (opcode_assigned i)

/-- A word with an assigned opcode and a reserved bit that is 1 does not decode (R54). -/
theorem decode_of_reserved_bit {w : Word} (i : Instr) (hop : opField w = opcode i) (hres : reservedField i w ≠ 0) :
    ∃ e, decode w = .error e :=
  ⟨_, (Machine.decode_of_opcode hop).trans (if_neg hres)⟩

/-! ### The obligations -/

/-- Settles O2: the encoded word spells the command's row, and its operand is read back from the low bits. -/
theorem decodeOfEncode : Obligations.DecodeOfEncode :=
  decode_encode

/-- Settles O3: a decoded word is its row's match bits over its operand, which is what the encoder writes. -/
theorem encodeOfDecode : Obligations.EncodeOfDecode :=
  fun _ _ => encode_of_decode

/-- Settles O1: the decoding procedure run on the ten words. -/
theorem writtenOutWordsDecode : Obligations.WrittenOutWordsDecode := by
  unfold Obligations.WrittenOutWordsDecode
  decide

end Sys2Proof.Laws
end

section
/-! The ports: what a rising edge does in each of its cases (R45, R101, R108), and that no command reads or writes the list
of coming edges or the words taken; the obligations on steps, reset and the ports follow. -/

namespace Sys2Proof.Machine

/-! ### One rising edge in each of its cases -/

theorem step_of_no_edges {s : State} (hes : s.edges = []) : step s = .next s := by
  rw [step, nextEdge, hes]

section
variable {s : State} {e : HostEdge} {rest : List HostEdge}

theorem step_of_rst (hes : s.edges = e :: rest) (hrst : e.rst = true) :
    step s = .next (s.setEdges rest).applyReset := by
  simp [step, nextEdge, hes, clockEdge, hrst]

/-- With no response pending, the word the host offers is accepted. -/
theorem step_of_offer {w : Word} {r : Bool} (hrsp : s.rsp = none) (hes : s.edges = ⟨false, some w, r⟩ :: rest) :
    step s = runCommandWord w (s.setEdges rest) := by
  simp [step, nextEdge, hes, clockEdge, responseTaken, commandAccepted, cmdReady, hrsp]

/-- With no response pending and nothing offered, nothing is transferred. -/
theorem step_of_no_offer {r : Bool} (hrsp : s.rsp = none) (hes : s.edges = ⟨false, none, r⟩ :: rest) :
    step s = .next (s.setEdges rest) := by
  simp [step, nextEdge, hes, clockEdge, responseTaken, commandAccepted, cmdReady, hrsp]

/-- A pending response goes to a host that is ready for it. -/
theorem step_of_pending_ready {w : Word} (hrsp : s.rsp = some w) (hes : s.edges = e :: rest) (hrst : e.rst = false)
    (hready : e.rspReady = true) : step s = .next ((s.setEdges rest).transferResponse w) := by
  simp [step, nextEdge, hes, clockEdge, responseTaken, hrsp, hrst, hready]

/-- A pending response the host is not ready for stays, and no word is accepted. -/
theorem step_of_pending_not_ready {w : Word} (hrsp : s.rsp = some w) (hes : s.edges = e :: rest) (hrst : e.rst = false)
    (hready : e.rspReady = false) : step s = .next (s.setEdges rest) := by
  simp [step, nextEdge, hes, clockEdge, responseTaken, commandAccepted, cmdReady, hrsp, hrst, hready]

end

theorem cmdReady_of_no_response {s : State} {e : HostEdge} (hrsp : s.rsp = none) (hrst : e.rst = false) :
    cmdReady s e = true := by
  rw [cmdReady, hrsp, hrst]
  rfl

theorem runCommandWord_of_decode {w : Word} {i : Instr} (h : decode w = .ok i) (s : State) :
    runCommandWord w s = exec i s := by
  rw [runCommandWord, h]

theorem runCommandWord_of_illegal {w : Word} (h : ∃ e, decode w = .error e) (s : State) :
    runCommandWord w s = .next (s.setRsp (some 0x10000000)) := by
  obtain ⟨e, he⟩ := h
  rw [runCommandWord, he]
  simp only
  rw [raise_eq, responseWord_illegal]

theorem decode_of_decodeTableWord {nbits w : Nat} {i : Instr} (h : decodeTableWord nbits w = some i) :
    decode (tableWord nbits w) = .ok i := by
  unfold decodeTableWord at h
  split at h
  · next j hj => rw [hj, Option.some.inj h]
  · cases h

/-! ### The host's own fields: no command reads or writes them (log 3, log 4) -/

/-- The state with another list of coming edges and another record of words taken. -/
def State.withHost (s : State) (es : List HostEdge) (ws : List Word) : State := (s.setEdges es).setSent ws

/-- The next state of an outcome, changed by `f`. -/
def mapNext (f : State → State) : Host.Outcome State Fault Refusal → Host.Outcome State Fault Refusal
  | .next s => .next (f s)
  | .fault r => .fault r
  | .refused r => .refused r

theorem State.writeLen_withHost (s : State) (es : List HostEdge) (ws : List Word) (i : Nat) (v : BitVec 5) :
    (s.withHost es ws).writeLen i v = (s.writeLen i v).map (·.withHost es ws) := by
  unfold State.writeLen
  rw [apply_ite (Option.map (State.withHost · es ws))]
  rfl

theorem State.writeTable_withHost (s : State) (es : List HostEdge) (ws : List Word) (ls : List Nat) :
    (s.withHost es ws).writeTable ls = (s.writeTable ls).map (·.withHost es ws) := by
  unfold State.writeTable
  rw [apply_ite (Option.map (State.withHost · es ws))]
  rfl

section
variable (s : State) (es : List HostEdge) (ws : List Word)

theorem execPushLen_withHost (clen : BitVec 5) :
    execPushLen clen (s.withHost es ws) = mapNext (·.withHost es ws) (execPushLen clen s) := by
  have hnsym : (s.withHost es ws).nsym = s.nsym := rfl
  simp only [execPushLen, apply_ite (mapNext _)]
  rw [hnsym, State.writeLen_withHost]
  cases s.writeLen s.nsym.toNat clen <;> rfl

theorem execReadLen_withHost (idx : BitVec 16) :
    execReadLen idx (s.withHost es ws) = mapNext (·.withHost es ws) (execReadLen idx s) := by
  have hread : (s.withHost es ws).readLen idx.toNat = s.readLen idx.toNat := rfl
  simp only [execReadLen, apply_ite (mapNext _)]
  rw [hread]
  cases s.readLen idx.toNat <;> rfl

theorem execLookup_withHost (idx : BitVec 16) :
    execLookup idx (s.withHost es ws) = mapNext (·.withHost es ws) (execLookup idx s) := by
  have hread : (s.withHost es ws).readTable idx.toNat = s.readTable idx.toNat := rfl
  simp only [execLookup, apply_ite (mapNext _)]
  rw [hread]
  cases s.readTable idx.toNat <;> rfl

theorem execReadReg_withHost (reg : BitVec 4) :
    execReadReg reg (s.withHost es ws) = mapNext (·.withHost es ws) (execReadReg reg s) := by
  unfold execReadReg
  cases statusReg? reg with
  | none => rfl
  | some r => cases r <;> rfl

theorem buildFrom_withHost (ls : List Nat) :
    buildFrom ls (s.withHost es ws) = mapNext (·.withHost es ws) (buildFrom ls s) := by
  simp only [buildFrom, apply_ite (mapNext _)]
  rw [State.writeTable_withHost]
  cases s.writeTable ls <;> rfl

theorem execBuild_withHost :
    execBuild (s.withHost es ws) = mapNext (·.withHost es ws) (execBuild s) := by
  have hread : (s.withHost es ws).readLengths = s.readLengths := rfl
  simp only [execBuild, apply_ite (mapNext _)]
  rw [hread]
  cases s.readLengths with
  | none => rfl
  | some ls =>
    simp only [buildFrom_withHost]
    rfl

/-- A command does the same whatever the host drives next and has taken, and keeps both. -/
theorem exec_withHost (i : Instr) : exec i (s.withHost es ws) = mapNext (·.withHost es ws) (exec i s) := by
  cases i with
  | clear => rfl
  | pushLen clen => exact execPushLen_withHost s es ws clen
  | build => exact execBuild_withHost s es ws
  | lookup idx => exact execLookup_withHost s es ws idx
  | readLen idx => exact execReadLen_withHost s es ws idx
  | readReg reg => exact execReadReg_withHost s es ws reg

end

theorem exec_keeps_host {i : Instr} {s t : State} (h : exec i s = .next t) : t.edges = s.edges ∧ t.sent = s.sent := by
  have hsame := exec_withHost s s.edges s.sent i
  rw [h] at hsame
  have ht : t = t.withHost s.edges s.sent := Host.Outcome.next.inj (h.symm.trans hsame)
  rw [ht]
  exact ⟨rfl, rfl⟩

/-- An executed command leaves one response on the port (R38). -/
theorem exec_responds {i : Instr} {s t : State} (h : exec i s = .next t) : ∃ w, t.rsp = some w := by
  obtain ⟨d, u, rfl⟩ | ⟨rc, -, -, -, rfl⟩ | ⟨-, -, rfl⟩ := exec_answer_cases h <;> exact ⟨_, rfl⟩

/-- An accepted word leaves one response on the port, the host's own fields and PARAMS as they were. -/
theorem runCommandWord_frame {w : Word} {s t : State} (h : runCommandWord w s = .next t) :
    (∃ v, t.rsp = some v) ∧ t.edges = s.edges ∧ t.sent = s.sent ∧ t.params = s.params := by
  obtain ⟨-, hw⟩ | ⟨i, -, hw⟩ := runCommandWord_cases w s
  · cases hw.symm.trans h
    exact ⟨⟨_, rfl⟩, rfl, rfl, rfl⟩
  · have hi := hw.symm.trans h
    obtain ⟨hedges, hsent⟩ := exec_keeps_host hi
    exact ⟨exec_responds hi, hedges, hsent, exec_params hi⟩

/-! ### Command sequences through the ports (R36, R45) -/

/-- The host offers the command's word at one edge and takes the response at the next. -/
def portEdges (i : Instr) : List HostEdge := [⟨false, some (encode i), false⟩, ⟨false, none, true⟩]

/-- Two edges run one command and take its response. -/
theorem run_portEdges {i : Instr} {s t : State} (h : exec i s = .next t) (n : Nat) (rest : List HostEdge) (ws : List Word) :
    ∃ w, core.run (n + 2) ((s.setRsp none).withHost (portEdges i ++ rest) ws) =
      core.run n ((t.setRsp none).withHost rest (ws ++ [w])) := by
  obtain ⟨w, hw⟩ := exec_responds h
  have hoffer : step ((s.setRsp none).withHost (portEdges i ++ rest) ws) =
      .next (t.withHost (⟨false, none, true⟩ :: rest) ws) := by
    have hexec := exec_withHost (s.setRsp none) (⟨false, none, true⟩ :: rest) ws i
    rw [exec_setRsp, h] at hexec
    rw [step_of_offer rfl rfl, runCommandWord_of_decode (Laws.decode_encode i)]
    exact hexec
  have htake : step (t.withHost (⟨false, none, true⟩ :: rest) ws) =
      .next ((t.setRsp none).withHost rest (ws ++ [w])) :=
    step_of_pending_ready hw rfl rfl rfl
  exact ⟨w, by rw [run_succ_of_step hoffer, run_succ_of_step htake]⟩

/-- A host that takes each response before it offers the next word leaves what the commands leave one after the other, and
has taken one response a command. -/
theorem run_portEdges_list (cs : List Instr) : ∀ {s : State} (ws : List Word), Inv s →
    ∃ t us, execAll cs s = .next t ∧ us.length = cs.length ∧
      core.run (2 * cs.length) ((s.setRsp none).withHost (cs.flatMap portEdges) ws) =
        .next ((t.setRsp none).withHost [] (ws ++ us)) := by
  induction cs with
  | nil => exact fun {s} ws _ => ⟨s, [], rfl, rfl, by rw [List.append_nil]; rfl⟩
  | cons i cs ih =>
    intro s ws hs
    obtain ⟨u, hu⟩ := hs.exec_answers i
    obtain ⟨w, hw⟩ := run_portEdges hu (2 * cs.length) (cs.flatMap portEdges) ws
    obtain ⟨t, us, ht, hlen, hrun⟩ := ih (ws ++ [w]) (hs.of_exec hu)
    refine ⟨t, w :: us, (execAll_cons_of_next hu cs).trans ht, congrArg Nat.succ hlen, ?_⟩
    rw [List.append_assoc, List.singleton_append] at hrun
    exact hw.trans hrun

/-! ### The obligations on the invariant and on what the host sees -/

/-- Settles O49: reset, the ports' moves and every command keep the invariant. -/
theorem stepKeepsTheInvariant : Obligations.StepKeepsTheInvariant :=
  fun _ _ => Inv.of_step

/-- Settles O50: under the invariant every command answers, and a step stops only where its command does. -/
theorem stepNeverStops : Obligations.StepNeverStops :=
  fun _ => Inv.step_answers

/-- Settles O52: every command and every move of the ports reads only what the two states have in common. -/
theorem unreadableEntriesAreUnobservable : Obligations.UnreadableEntriesAreUnobservable :=
  fun _ _ => SameToHost.step

/-- Settles O48: the reset state meets the invariant, which says nothing of the coming edges. -/
theorem resetMeetsTheInvariant : Obligations.ResetMeetsTheInvariant :=
  fun _ es hc => (inv_resetWith hc).setEdges es

/-! ### The obligations on the ports -/

/-- Settles O56: by induction on the commands, two edges a command. -/
theorem portsRealiseCommandSequences : Obligations.PortsRealiseCommandSequences := by
  intro s cs hs
  obtain ⟨t, us, ht, hlen, hrun⟩ := run_portEdges_list cs s.sent hs
  refine ⟨t, _, ht, hrun, rfl, ⟨us, rfl⟩, ?_⟩
  exact (List.length_append).trans (congrArg (s.sent.length + ·) hlen)

/-- Settles O14: the cases of a step, and an accepted word leaves exactly one response. -/
theorem oneResponseForEachCommand : Obligations.OneResponseForEachCommand := by
  intro s t e rest hes h
  obtain ⟨hnil, -⟩ | ⟨e', rest', hes', hcases⟩ := step_cases s
  · cases hes.symm.trans hnil
  cases hes.symm.trans hes'
  obtain ⟨hrst, hst⟩ | ⟨w, hrst, hready, hrsp, hst⟩ | ⟨w, hrst, hrsp, hcmd, hst⟩ | ⟨hrst, hno, hnot, hst⟩ := hcases
  case inl =>
    cases hst.symm.trans h
    exact .inl ⟨hrst, rfl, rfl⟩
  case inr.inl =>
    cases hst.symm.trans h
    exact .inr (.inr (.inl ⟨w, by simp [responseTaken, hrst, hready, hrsp], hrsp, rfl, rfl⟩))
  case inr.inr.inl =>
    obtain ⟨⟨v, hv⟩, -, hsent, -⟩ := runCommandWord_frame (hst.symm.trans h)
    exact .inr (.inl ⟨w, by simp [commandAccepted, cmdReady, hrst, hrsp, hcmd], hrsp, by rw [hv]; rfl, hsent⟩)
  case inr.inr.inr =>
    cases hst.symm.trans h
    refine .inr (.inr (.inr ⟨?_, ?_, rfl⟩))
    · cases hrsp : s.rsp with
      | none => simp [commandAccepted, hno hrsp]
      | some w => simp [commandAccepted, cmdReady, hrsp]
    · cases hrsp : s.rsp with
      | none => simp [responseTaken, hrsp]
      | some w => simp [responseTaken, hnot (by simp [hrsp])]

/-- Settles O11: the accepted word leaves PARAMS, the coming edges and the words taken, all that reset keeps. -/
theorem resetAbandonsTheCommand : Obligations.ResetAbandonsTheCommand := by
  intro s w r e rest hs hrsp hes hrst
  obtain ⟨u, hu⟩ := hs.step_answers
  have hrun : runCommandWord w (s.setEdges (e :: rest)) = .next u := (step_of_offer hrsp hes).symm.trans hu
  obtain ⟨-, hedges, hsent, hparams⟩ := runCommandWord_frame hrun
  refine ⟨_, ?_, rfl, fun idx => execLookup_of_not_ready idx nofun⟩
  rw [run_succ_of_step hu, run_succ_of_step (step_of_rst hedges hrst), State.applyReset, State.setEdges_params,
    State.setEdges_sent, hparams, hsent]
  rfl

/-- Settles O6: an offered word on the ready port is run on the state whose edges have moved on. -/
theorem stepRunsTheDecodedCommand : Obligations.StepRunsTheDecodedCommand := by
  intro s w r rest i hrsp hes hd
  rw [step_of_offer hrsp hes, runCommandWord_of_decode hd]
  rfl

/-- Settles O7: `withFetchWord` offers the word at the next edge and empties the response port. -/
theorem fetchWordRunsNext : Obligations.FetchWordRunsNext := by
  intro s nbits w i h
  rw [State.withFetchWord, step_of_offer rfl rfl, runCommandWord_of_decode (decode_of_decodeTableWord h)]
  rfl

/-- Settles O8: neither a reserved opcode nor a word with a reserved bit that is 1 decodes. -/
theorem reservedWordsAnswerIllegal : Obligations.ReservedWordsAnswerIllegal := by
  intro s w r rest hrsp hes hw
  have hillegal : ∃ e, decode w = .error e := by
    obtain h0 | h7 | ⟨hop, hres⟩ | ⟨hop, hres⟩ | ⟨hop, hres⟩ | ⟨hop, hres⟩ | ⟨hop, hres⟩ | ⟨hop, hres⟩ := hw
    · exact Laws.decode_of_reserved_opcode (.inl h0)
    · exact Laws.decode_of_reserved_opcode (.inr h7)
    · exact Laws.decode_of_reserved_bit .clear hop hres
    · exact Laws.decode_of_reserved_bit (.pushLen 0) hop hres
    · exact Laws.decode_of_reserved_bit .build hop hres
    · exact Laws.decode_of_reserved_bit (.lookup 0) hop hres
    · exact Laws.decode_of_reserved_bit (.readLen 0) hop hres
    · exact Laws.decode_of_reserved_bit (.readReg 0) hop hres
  rw [step_of_offer hrsp hes, runCommandWord_of_illegal hillegal]
  rfl

/-- Settles O10: `rst` gates both transfers, and the reset state has NSYM 0, STATE not READY and no response. -/
theorem resetEdgeSetsResetState : Obligations.ResetEdgeSetsResetState := by
  intro s e rest hes hrst
  have hready : cmdReady s e = false := by rw [cmdReady, hrst]; rfl
  refine ⟨hready, by rw [commandAccepted, hready]; rfl, by rw [responseTaken, hrst]; rfl, (s.setEdges rest).applyReset,
    step_of_rst hes hrst, rfl, rfl, rfl, rfl, rfl, rfl, rfl, rfl,
    fun e' => cmdReady_of_no_response rfl, fun idx => ?_, fun idx => ?_⟩
  · exact execReadLen_of_nsym_le (Nat.zero_le _)
  · exact execLookup_of_not_ready idx nofun

/-- Settles O12: the two cases of an edge with a response pending. -/
theorem responseHeldUntilTaken : Obligations.ResponseHeldUntilTaken := by
  intro s w e rest hrsp hes hrst
  refine ⟨?_, step_of_pending_ready hrsp hes hrst, step_of_pending_not_ready hrsp hes hrst⟩
  rw [cmdReady, hrst, hrsp]
  rfl

/-- Settles O13: the case of an edge with no response pending and nothing offered, and that of no edge. -/
theorem idleBlockKeepsItsState : Obligations.IdleBlockKeepsItsState := by
  intro s hrsp
  refine ⟨fun e => cmdReady_of_no_response hrsp, step_of_no_edges, fun r rest => step_of_no_offer hrsp⟩

end Sys2Proof.Machine
end

section
/-! The table and the codes seen through BUILD and LOOKUP: the two Kraft sums, the fill ranges, and that a READY block's
LOOKUP decodes every code; the obligations follow. -/

namespace Sys2Proof.Machine

/-! ### Slots of a code's range (R75, R81) -/

/-- A code right-padded to `M` bits names a slot of the code's range. -/
theorem padded_code_mem_range {m t : Nat} {c : Code} (ht : t < 2 ^ (m - c.len)) :
    c.lo m ≤ c.code * 2 ^ (m - c.len) + t ∧ c.code * 2 ^ (m - c.len) + t < c.hi m := by
  rw [Code.lo, Code.hi, Nat.shiftLeft_eq, Nat.shiftLeft_eq, Nat.succ_mul]
  exact ⟨Nat.le_add_right _ _, Nat.add_lt_add_left ht _⟩

theorem code_hi_eq {ls : List Nat} {c : Code} (hc : c ∈ canonicalCodes ls) :
    c.hi (maxLength ls) = c.lo (maxLength ls) + 2 ^ (maxLength ls - c.len) := by
  obtain ⟨-, -, hhi⟩ := assignCodes_bounds (next := 0) (orderedCodes_walkable ls) c hc
  exact hhi

/-! ### The invariant in terms of `M` (R27) -/

theorem Inv.tableAt_eq {s : State} (hs : Inv s) (hl : s.lifecycle = .ready) {j : Nat} (hj : j < 2 ^ maxLength s.lengths) :
    s.tableAt j = tableSpec s.lengths j :=
  hs.ready_table hl j (by rwa [hs.ready_maxBits hl])

theorem Inv.kraft_le {s : State} (hs : Inv s) (hl : s.lifecycle = .ready) :
    kraftSum s.lengths ≤ 2 ^ maxLength s.lengths := by
  have hk := hs.ready_kraft hl
  rwa [hs.ready_maxBits hl] at hk

theorem Inv.slots_le {s : State} (hs : Inv s) : 2 ^ maxLength s.lengths ≤ 2 ^ 16 :=
  Nat.pow_le_pow_right (by decide) (hs.maxLength_le_lmax.trans hs.lmax_le)

/-! ### The entry of a code (R23) -/

/-- The pattern of a canonical code's entry: its symbol and length fit the fields of R23. -/
theorem toNat_bits_codeEntry {s : State} {c : Code} (hc : c ∈ canonicalCodes s.lengths) :
    (codeEntry c.sym c.len).bits.toNat = 2 ^ 21 + c.len * 2 ^ 16 + c.sym := by
  obtain ⟨hsym, hlen⟩ := mem_canonicalCodes hc
  have hlt := (mem_ord.1 hsym).1
  have hn := s.nsym.isLt
  have hM := s.built.maxBits.isLt
  have hle := code_len_le hc
  rw [State.length_lengths] at hlt
  rw [State.toNat_built_maxBits] at hM
  rw [codeEntry, Entry.toNat_bits_valid, BitVec.toNat_ofNat, BitVec.toNat_ofNat, Nat.mod_eq_of_lt (by omega),
    Nat.mod_eq_of_lt (by omega)]

/-! ### The obligations -/

/-- Settles O26: a successful BUILD leaves `State.built`, whose table below `2^M` is `tableSpec`. -/
theorem builtTableIsPrefixLookup : Obligations.BuiltTableIsPrefixLookup := by
  intro s t hl hn hle hk h j hj
  rw [exec_build_of_kraft hl hn hle hk] at h
  cases h
  exact State.built_tableAt hj

/-- Settles O32: both sums count the slots of all the fill ranges. -/
theorem kraftSumOverSymbolsOrHistogram : Obligations.KraftSumOverSymbolsOrHistogram :=
  ksum_eq_kraftSum

/-- Settles O35: a range has `2^(M-L)` slots, the last range ends at KSUM, and different symbols have different codes. -/
theorem fillRangesAreDisjoint : Obligations.FillRangesAreDisjoint :=
  fun _ hk => ⟨fun _ hc => ⟨code_hi_eq hc, code_hi_le hk hc⟩,
    fun _ ha _ hb hsym => code_ranges_disjoint ha hb fun hab => hsym (congrArg Code.sym hab)⟩

/-- Settles O36: the padded code names a slot of the code's range, which holds the code's entry. -/
theorem lookupDecodesEveryCode : Obligations.LookupDecodesEveryCode := by
  intro s c t hs hl hc ht
  have hM := hs.ready_maxBits hl
  rw [hM] at ht ⊢
  obtain ⟨hlo, hhi⟩ := padded_code_mem_range ht
  have hj := hhi.trans_le (code_hi_le (hs.kraft_le hl) hc)
  have h16 := hj.trans_le hs.slots_le
  have hidx : (BitVec.ofNat 16 (c.code * 2 ^ (maxLength s.lengths - c.len) + t)).toNat =
      c.code * 2 ^ (maxLength s.lengths - c.len) + t :=
    Nat.mod_eq_of_lt h16
  refine ⟨h16, ?_⟩
  rw [exec_lookup_of_inTable hl (hM.trans_le hs.maxLength_le_lmax) (by rwa [hidx, hM]), hidx, hs.tableAt_eq hl hj,
    tableSpec_of_mem_range hc hlo hhi, toNat_bits_codeEntry hc]
  rfl

/-- Settles O37: the slots below KSUM are those of the codes' ranges, and COMPLETE says that KSUM is `2^M`. -/
theorem completeMeansEverySlotValid : Obligations.CompleteMeansEverySlotValid := by
  intro s hs hl
  have hcomplete := hs.ready_complete hl
  rw [hs.ready_maxBits hl] at hcomplete ⊢
  refine ⟨fun hone j hj => ?_, fun _ j hj hk hd => ?_⟩
  · rw [hone] at hcomplete
    rw [← of_decide_eq_true hcomplete.symm, ← exists_code_range_iff] at hj
    obtain ⟨c, hc, hlo, hhi⟩ := hj
    rw [hs.tableAt_eq hl (hhi.trans_le (code_hi_le (hs.kraft_le hl) hc)), tableSpec_of_mem_range hc hlo hhi]
    exact nofun
  · rw [hs.tableAt_eq hl hj]
    exact tableSpec_of_not_mem_range (fun c hc hr => Nat.not_lt.2 hk (exists_code_range_iff.1 ⟨c, hc, hr⟩)) hd

/-- Settles O20: an index with a 1 at bit `k` is at least `2^k`. -/
theorem lookupNeverMasksTheIndex : Obligations.LookupNeverMasksTheIndex := by
  intro s idx k hl hk hbit
  have hge : 2 ^ k ≤ idx.toNat := Nat.ge_two_pow_of_testBit hbit
  exact execLookup_of_maxBits_le hl ((Nat.pow_le_pow_right (by decide) hk).trans hge)

end Sys2Proof.Machine
end

section
/-! The other methods R82 allows: the counting sort puts each symbol where ORD has it, and the per-level recurrence is
`2^l` minus the Kraft sum of the lengths up to `l`; the two obligations follow. -/

namespace Sys2Proof.Machine

/-! ### Where ORD has each symbol (R69, R70) -/

/-- The position the counting sort gives a symbol: the start of its length's bucket plus the number of smaller symbols of
the same length. -/
def sortedPosition (ls : List Nat) (s : Nat) : Nat := offs ls (ls.getD s 0) + (ls.take s).count (ls.getD s 0)

theorem range_eq_append_cons {i n : Nat} (h : i < n) : ∃ ys, List.range n = List.range i ++ i :: ys := by
  obtain ⟨k, rfl⟩ := Nat.exists_eq_add_of_lt h
  refine ⟨(List.range k).map (i + 1 + ·), ?_⟩
  rw [Nat.add_assoc, List.range_add, List.range_succ_eq_map, List.map_cons, List.map_map, Nat.add_zero]
  congr 2
  exact List.map_congr_left fun j _ => by simp only [Function.comp_apply]; omega

/-- The symbols of a length are those of the lengths before the symbol `s`, then `s`, then later ones. -/
theorem symbolsOfLength_split {ls : List Nat} {s : Nat} (h : s < ls.length) :
    ∃ ys, symbolsOfLength ls (ls.getD s 0) = symbolsOfLength (ls.take s) (ls.getD s 0) ++ s :: ys := by
  obtain ⟨ys, hys⟩ := range_eq_append_cons h
  have hbefore : symbolsOfLength (ls.take s) (ls.getD s 0) =
      (List.range s).filter fun i => ls.getD i 0 = ls.getD s 0 := by
    rw [symbolsOfLength, List.length_take_of_le h.le]
    refine List.filter_congr fun i hi => ?_
    rw [List.getD_eq_getElem?_getD, List.getElem?_take_of_lt (List.mem_range.1 hi), ← List.getD_eq_getElem?_getD]
  refine ⟨ys.filter fun i => ls.getD i 0 = ls.getD s 0, ?_⟩
  rw [hbefore, symbolsOfLength, hys, List.filter_append, List.filter_cons_of_pos (by simp)]

/-- The buckets below `l + 1` together end where OFFS says the next one starts. -/
theorem length_buckets (ls : List Nat) (l : Nat) :
    ((List.range l).flatMap fun k => symbolsOfLength ls (k + 1)).length = offs ls (l + 1) := by
  induction l with
  | zero => rfl
  | succ l ih =>
    rw [List.range_succ, List.flatMap_append, List.length_append, ih, List.flatMap_singleton, length_symbolsOfLength,
      offs.eq_2 ls (l + 1), if_neg (Nat.succ_ne_zero l)]

/-- ORD holds each coded symbol at its sorted position. -/
theorem getElem?_ord_sortedPosition {ls : List Nat} {s : Nat} (hs : s < ls.length) (hpos : 0 < ls.getD s 0) :
    (ord ls)[sortedPosition ls s]? = some s := by
  obtain ⟨l, hl⟩ := Nat.exists_eq_succ_of_ne_zero hpos.ne'
  have hM : l < maxLength ls := hl.symm.trans_le (getD_le_maxLength ls s)
  obtain ⟨later, hrange⟩ := range_eq_append_cons hM
  obtain ⟨ys, hbucket⟩ := symbolsOfLength_split hs
  rw [hl] at hbucket
  have hstart : (((List.range l).flatMap fun k => symbolsOfLength ls (k + 1)) ++
      symbolsOfLength (ls.take s) (l + 1)).length = sortedPosition ls s := by
    rw [List.length_append, length_buckets, length_symbolsOfLength, sortedPosition, hl, hist]
  have hord : ord ls = (((List.range l).flatMap fun k => symbolsOfLength ls (k + 1)) ++
      symbolsOfLength (ls.take s) (l + 1)) ++ s :: (ys ++ later.flatMap fun k => symbolsOfLength ls (k + 1)) := by
    rw [ord, hrange, List.flatMap_append, List.flatMap_cons, hbucket]
    simp only [List.append_assoc, List.cons_append]
  rw [hord, ← hstart, List.getElem?_append_right le_rfl, Nat.sub_self, List.getElem?_cons_zero]

/-! ### The scatter (R65 S4, R82) -/

/-- The first `i` symbols are scattered: each cursor has moved past the symbols of its length, and each coded symbol stands
at its sorted position. -/
structure Scattered (lmax : Nat) (ls : List Nat) (i : Nat) (curOrd : List Nat × List Nat) : Prop where
  cursors_length : curOrd.1.length = lmax + 1
  cursor : ∀ l, 0 < l → l ≤ lmax → curOrd.1.getD l 0 = offs ls l + (ls.take i).count l
  slots : curOrd.2.length = (ord ls).length
  placed : ∀ s < i, 0 < ls.getD s 0 → curOrd.2[sortedPosition ls s]? = some s

theorem scattered_zero {lmax : Nat} {ls : List Nat} (hle : ∀ l ∈ ls, l ≤ lmax) :
    Scattered lmax ls 0 (cursors lmax ls, List.replicate (offs ls (lmax + 1)) 0) where
  cursors_length := by simp [cursors]
  cursor l _ hl := by simp [cursors, Nat.lt_succ_of_le hl]
  slots := by rw [List.length_replicate, offs_eq_length_ord hle]
  placed s hs := absurd hs (Nat.not_lt_zero s)

theorem count_take_succ {ls : List Nat} {i : Nat} (hi : i < ls.length) (l : Nat) :
    (ls.take (i + 1)).count l = (ls.take i).count l + if ls.getD i 0 = l then 1 else 0 := by
  rw [List.take_succ_eq_append_getElem hi, List.count_append, List.count_singleton, List.getD_eq_getElem _ _ hi]
  simp only [beq_iff_eq]

/-- One symbol more is scattered. -/
theorem Scattered.scatterSymbol {lmax i : Nat} {ls : List Nat} {curOrd : List Nat × List Nat}
    (h : Scattered lmax ls i curOrd) (hle : ∀ l ∈ ls, l ≤ lmax) (hi : i < ls.length) :
    Scattered lmax ls (i + 1) (scatterSymbol curOrd i (ls.getD i 0)) := by
  unfold Machine.scatterSymbol
  by_cases hpos : 0 < ls.getD i 0
  case neg =>
    rw [if_neg hpos]
    refine ⟨h.cursors_length, fun l hl hlm => ?_, h.slots, fun s hs hspos => h.placed s ?_ hspos⟩
    · rw [h.cursor l hl hlm, count_take_succ hi, if_neg (by omega), Nat.add_zero]
    · exact lt_of_le_of_ne (Nat.le_of_lt_succ hs) fun he => hpos (he ▸ hspos)
  case pos =>
    have hlm : ls.getD i 0 ≤ lmax := by
      rw [List.getD_eq_getElem _ _ hi]
      exact hle _ (List.getElem_mem hi)
    have hcur : curOrd.1.getD (ls.getD i 0) 0 = sortedPosition ls i := h.cursor _ hpos hlm
    have hplace := getElem?_ord_sortedPosition hi hpos
    obtain ⟨hslot, -⟩ := List.getElem?_eq_some_iff.1 hplace
    rw [if_pos hpos, hcur]
    refine ⟨by rw [List.length_set, h.cursors_length], fun l hl hlm' => ?_, by rw [List.length_set, h.slots],
      fun s hs hspos => ?_⟩
    · have hbound : ls.getD i 0 < curOrd.1.length := by rw [h.cursors_length]; omega
      rw [count_take_succ hi]
      by_cases hsame : ls.getD i 0 = l
      · subst hsame
        rw [if_pos rfl, List.getD_eq_getElem?_getD, List.getElem?_set_self hbound, Option.getD_some, sortedPosition]
        omega
      · rw [if_neg hsame, List.getD_eq_getElem?_getD, List.getElem?_set_ne hsame, ← List.getD_eq_getElem?_getD,
          h.cursor l hl hlm']
        rfl
    · by_cases hsi : s = i
      · subst hsi
        exact List.getElem?_set_self (h.slots ▸ hslot)
      · have hne : sortedPosition ls i ≠ sortedPosition ls s := fun he => by
          rw [he, getElem?_ord_sortedPosition (by omega) hspos] at hplace
          exact hsi (Option.some.inj hplace)
        rw [List.getElem?_set_ne hne]
        exact h.placed s (by omega) hspos

/-- The scatter of the symbols from `i` on leaves all symbols scattered. -/
theorem Scattered.scatterFrom {lmax : Nat} {ls : List Nat} (hle : ∀ l ∈ ls, l ≤ lmax) (todo : List Nat) :
    ∀ {i : Nat} {curOrd : List Nat × List Nat}, ls.drop i = todo → i ≤ ls.length → Scattered lmax ls i curOrd →
      Scattered lmax ls ls.length (scatterFrom i todo curOrd) := by
  induction todo with
  | nil =>
    intro i curOrd hdrop hi h
    have hend : i = ls.length := le_antisymm hi (List.drop_eq_nil_iff.1 hdrop)
    exact hend ▸ h
  | cons l todo ih =>
    intro i curOrd hdrop _ h
    have hi : i < ls.length := by
      by_contra hge
      rw [List.drop_eq_nil_iff.2 (Nat.not_lt.1 hge)] at hdrop
      cases hdrop
    rw [List.drop_eq_getElem_cons hi, List.cons.injEq] at hdrop
    obtain ⟨hl, htodo⟩ := hdrop
    rw [← List.getD_eq_getElem ls 0 hi] at hl
    exact ih htodo hi (hl ▸ h.scatterSymbol hle hi)

/-- When all symbols are scattered, the slots are ORD: every slot of ORD is some symbol's sorted position. -/
theorem Scattered.eq_ord {lmax : Nat} {ls : List Nat} {curOrd : List Nat × List Nat}
    (h : Scattered lmax ls ls.length curOrd) : curOrd.2 = ord ls := by
  refine List.ext_getElem? fun k => ?_
  cases hk : (ord ls)[k]? with
  | none => rw [List.getElem?_eq_none_iff, h.slots, ← List.getElem?_eq_none_iff, hk]
  | some s =>
    obtain ⟨hlt, hget⟩ := List.getElem?_eq_some_iff.1 hk
    obtain ⟨hs, hpos⟩ := mem_ord.1 (hget ▸ List.getElem_mem hlt)
    have hplace := getElem?_ord_sortedPosition hs hpos
    rw [(List.getElem?_inj hlt (ord_nodup ls)).1 (hk.trans hplace.symm)]
    exact h.placed s hs hpos

/-! ### The per-level recurrence (R82) -/

/-- The Kraft sum of the lengths up to `l`, in slots of a table of `l` bits. -/
def kraftUpTo (ls : List Nat) (l : Nat) : Nat := ((List.range l).map fun k => hist ls (k + 1) <<< (l - (k + 1))).sum

theorem kraftUpTo_maxLength (ls : List Nat) : kraftUpTo ls (maxLength ls) = kraftSum ls :=
  ksum_eq_kraftSum ls

/-- One bit more doubles the slots of every code and adds those of the new length. -/
theorem kraftUpTo_succ (ls : List Nat) (l : Nat) : kraftUpTo ls (l + 1) = 2 * kraftUpTo ls l + hist ls (l + 1) := by
  have hdouble : (List.range l).map (fun k => hist ls (k + 1) <<< (l + 1 - (k + 1))) =
      (List.range l).map fun k => 2 * hist ls (k + 1) <<< (l - (k + 1)) := by
    refine List.map_congr_left fun k hk => ?_
    have hsub : l + 1 - (k + 1) = l - (k + 1) + 1 := by
      have := List.mem_range.1 hk
      omega
    rw [hsub, Nat.shiftLeft_succ]
  rw [kraftUpTo, List.range_succ, List.map_append, List.sum_append, hdouble, List.sum_map_mul_left, List.map_singleton,
    List.sum_singleton, Nat.sub_self, Nat.shiftLeft_zero, kraftUpTo]

theorem codesLeft_eq (ls : List Nat) (l : Nat) : codesLeft ls l = 2 ^ l - (kraftUpTo ls l : Int) := by
  induction l with
  | zero => rfl
  | succ l ih =>
    rw [codesLeft, ih, kraftUpTo_succ, pow_succ]
    push_cast
    ring

theorem codesLeft_succ_neg {ls : List Nat} {l : Nat} (h : codesLeft ls l < 0) : codesLeft ls (l + 1) < 0 := by
  rw [codesLeft]
  omega

theorem codesLeft_neg_of_le {ls : List Nat} {l m : Nat} (hlm : l ≤ m) (h : codesLeft ls l < 0) : codesLeft ls m < 0 :=
  Nat.le_induction h (fun _ _ => codesLeft_succ_neg) m hlm

/-! ### The obligations -/

/-- Settles O39: after the scatter every coded symbol stands at its position in ORD. -/
theorem countingSortGivesTheSameOrder : Obligations.CountingSortGivesTheSameOrder :=
  fun _ ls hle => ((scattered_zero hle).scatterFrom hle ls rfl (Nat.zero_le _)).eq_ord

/-- Settles O40: `left_l` is `2^l` minus the Kraft sum up to `l`, and once negative it stays so up to `M`. -/
theorem leftRecurrenceDetectsOversubscription : Obligations.LeftRecurrenceDetectsOversubscription := by
  intro ls
  have hM : codesLeft ls (maxLength ls) = (2 ^ maxLength ls : Int) - (kraftSum ls : Int) := by
    rw [codesLeft_eq, kraftUpTo_maxLength]
  have hneg : codesLeft ls (maxLength ls) < 0 ↔ 2 ^ maxLength ls < kraftSum ls := by
    rw [hM, sub_neg]
    exact_mod_cast Iff.rfl
  refine ⟨⟨?_, fun hk => ⟨_, le_rfl, hneg.2 hk⟩⟩, hM, fun _ => codesLeft_succ_neg⟩
  rintro ⟨l, hle, hl⟩
  exact hneg.1 (codesLeft_neg_of_le hle hl)

end Sys2Proof.Machine
end

section
/-! Commands over the whole block: the reads change the response port only, STATE moves along its lifecycle, and BUILD_TABLE
is one call of `build`; the obligations follow. -/

namespace Sys2Proof.Machine

/-! ### STATE (R16) -/

/-- A command keeps STATE, or is CLEAR, or is a BUILD that ends the construction. -/
theorem exec_lifecycle_cases {i : Instr} {s t : State} (h : exec i s = .next t) :
    t.lifecycle = s.lifecycle ∨ (i = .clear ∧ t.lifecycle = .loading) ∨
    (i = .build ∧ s.lifecycle = .loading ∧ (t.lifecycle = .ready ∨ t.lifecycle = .failed)) := by
  cases i with
  | clear =>
    cases h
    exact .inr (.inl ⟨rfl, rfl⟩)
  | pushLen clen =>
    obtain ⟨-, rfl⟩ | ⟨-, -, rfl⟩ | ⟨-, -, -, rfl⟩ | ⟨-, -, -, rfl⟩ := execPushLen_cases h <;> exact .inl rfl
  | build =>
    obtain ⟨-, rfl⟩ | ⟨hl, -, -, rfl⟩ | ⟨hl, -, -, -, rfl⟩ := execBuild_cases h
    · exact .inl rfl
    · exact .inr (.inr ⟨rfl, hl, .inr rfl⟩)
    · exact .inr (.inr ⟨rfl, hl, .inl rfl⟩)
  | lookup idx => obtain ⟨-, rfl⟩ | ⟨-, -, rfl⟩ | ⟨-, -, -, rfl⟩ := execLookup_cases h <;> exact .inl rfl
  | readLen idx => obtain ⟨-, rfl⟩ | ⟨-, -, rfl⟩ := execReadLen_cases h <;> exact .inl rfl
  | readReg reg => obtain ⟨-, rfl⟩ | ⟨r, -, rfl⟩ := execReadReg_cases h <;> exact .inl rfl

/-! ### BUILD_TABLE (R60) -/

/-- The state in which CLEAR leaves `s`, before it answers (R89). -/
def State.cleared (s : State) : State :=
  (((s.setLifecycle .loading).setNsym 0).setMaxBits 0).setComplete false

theorem exec_clear (s : State) : exec .clear s = .next (respond .ok 0 s.cleared) := rfl

theorem execAll_append_of_next {xs : List Instr} (ys : List Instr) :
    ∀ {s t : State}, execAll xs s = .next t → execAll (xs ++ ys) s = execAll ys t := by
  induction xs with
  | nil =>
    intro s t h
    cases h
    rfl
  | cons i xs ih =>
    intro s t h
    cases hi : exec i s with
    | next u =>
      rw [execAll_cons_of_next hi] at h
      rw [List.cons_append, execAll_cons_of_next hi, ih h]
    | fault f => simp [execAll, hi] at h
    | refused r => simp [execAll, hi] at h

/-- CLEAR and legal pushes leave a LOADING block that holds the lengths, in the same configuration. -/
theorem execAll_loadLengths (s : State) {bs : List (BitVec 5)} (hroom : bs.length ≤ s.lenSize)
    (hlegal : ∀ l ∈ bs, l ≤ s.params.lmax) :
    ∃ t, execAll (loadLengths bs) s = .next t ∧ t.lifecycle = .loading ∧ t.params = s.params ∧
      t.lengths = bs.map BitVec.toNat := by
  obtain ⟨t, hrun, hlengths, hframe⟩ :=
    execAll_pushLen bs (s := respond .ok 0 s.cleared) rfl ((Nat.zero_add _).trans_le hroom) hlegal
  refine ⟨t, (execAll_cons_of_next (exec_clear s) _).trans hrun, ?_, ?_, hlengths⟩
  · rw [hframe]
    rfl
  · rw [hframe]
    rfl

/-! ### The obligations -/

/-- Settles O45: every answer of a read writes the response port only, and no command reads that. -/
theorem readsHaveNoSideEffects : Obligations.ReadsHaveNoSideEffects := by
  intro i s t hread h
  have hframe : ∃ r, t = s.setRsp r := by
    obtain ⟨idx, rfl⟩ | ⟨idx, rfl⟩ | ⟨reg, rfl⟩ := hread
    · obtain ⟨-, rfl⟩ | ⟨-, -, rfl⟩ | ⟨-, -, -, rfl⟩ := execLookup_cases h <;> exact ⟨_, rfl⟩
    · obtain ⟨-, rfl⟩ | ⟨-, -, rfl⟩ := execReadLen_cases h <;> exact ⟨_, rfl⟩
    · obtain ⟨-, rfl⟩ | ⟨r, -, rfl⟩ := execReadReg_cases h <;> exact ⟨_, rfl⟩
  obtain ⟨r, rfl⟩ := hframe
  exact ⟨rfl, (exec_setRsp i s r).trans h⟩

/-- Settles O47: only CLEAR and BUILD write STATE, and of the moves of the ports only reset does. -/
theorem lifecycleTransitions : Obligations.LifecycleTransitions := by
  refine ⟨fun i s t h hne => (exec_lifecycle_cases h).resolve_left hne, fun s t h hne => ?_⟩
  have hstep : t.lifecycle = s.lifecycle ∨ t.lifecycle = .loading ∨
      (s.lifecycle = .loading ∧ (t.lifecycle = .ready ∨ t.lifecycle = .failed)) := by
    obtain ⟨-, hst⟩ | ⟨e, rest, -, ⟨-, hst⟩ | ⟨w, -, -, -, hst⟩ | ⟨w, -, -, -, hst⟩ | ⟨-, -, -, hst⟩⟩ := step_cases s
    case inl => cases hst.symm.trans h; exact .inl rfl
    case inr.inl => cases hst.symm.trans h; exact .inr (.inl rfl)
    case inr.inr.inl => cases hst.symm.trans h; exact .inl rfl
    case inr.inr.inr.inr => cases hst.symm.trans h; exact .inl rfl
    case inr.inr.inr.inl =>
      obtain ⟨-, hw⟩ | ⟨i, -, hw⟩ := runCommandWord_cases w (s.setEdges rest)
      · cases (hst.trans hw).symm.trans h
        exact .inl rfl
      · exact (exec_lifecycle_cases ((hst.trans hw).symm.trans h)).imp_right (Or.imp And.right And.right)
  exact hstep.resolve_left hne

/-- Settles O55: CLEAR and the pushes load the lengths, and BUILD of them fails or leaves `State.built`. -/
theorem buildTableRealisesOneBuild : Obligations.BuildTableRealisesOneBuild := by
  intro s bs _ hroom hlegal ls
  obtain ⟨u, hload, hl, hparams, hlengths⟩ := execAll_loadLengths s hroom fun l hm => BitVec.le_def.2 (hlegal l hm)
  have hn : u.nsym.toNat ≤ u.lenSize := by
    rw [← u.length_lengths, hlengths, List.length_map, State.lenSize, hparams]
    exact hroom
  have hle : ∀ l ∈ u.lengths, l ≤ u.params.lmax.toNat := by
    rw [hlengths, hparams]
    exact List.forall_mem_map.2 hlegal
  have hrun : ∀ t, exec .build u = .next t → execAll (buildTable bs) s = .next t := fun t ht => by
    rw [buildTable, execAll_append_of_next _ hload, execAll_cons_of_next ht]
    rfl
  rcases Nat.lt_or_ge (2 ^ maxLength ls) (kraftSum ls) with hk | hk
  · refine ⟨_, hrun _ (execBuild_of_oversubscribed hl hn (by rwa [hlengths])), hlengths, fun _ => ?_,
      fun hk' => absurd hk (Nat.not_lt.2 hk')⟩
    exact ⟨rfl, rfl, fun idx => execLookup_of_not_ready idx nofun⟩
  · refine ⟨_, hrun _ (exec_build_of_kraft hl hn hle (by rwa [hlengths])), hlengths,
      fun hk' => absurd hk' (Nat.not_lt.2 hk), fun _ => ⟨rfl, ?_, fun j hj => ?_⟩⟩
    · exact u.toNat_built_maxBits.trans (congrArg maxLength hlengths)
    · have hslot := State.built_tableAt (s := u) (j := j) (by rwa [hlengths])
      rwa [hlengths] at hslot

end Sys2Proof.Machine
end
